-- ==== Sys2Proof/Word.lean ====
section
/-! DEFINITION. The value types of the core, with the widths of rules R4 and R6 (`00_scope.md`). Every register and
every memory word is an unsigned number of its stated width and plain `+` and `-` wrap (rule R8), so each is a bit
vector. -/

namespace Sys2Proof

/-- One byte of the program image, one operand byte, or an 8-bit register (`FLAGS_BITS` = `SP_BITS` = 8, rule R6). -/
abbrev Byte := BitVec 8

/-- "4-byte big-endian unsigned integer, the unit of data movement" (`00_scope.md` glossary); also the accumulator
(`ACC_BITS` = 32, rule R6) and a fetched instruction (rule R33). -/
abbrev Word := BitVec 32

/-- A program-counter value: a 16-bit instruction-slot index, not a byte address (`PC_BITS` = 16, rules R6 and R14). -/
abbrev Slot := BitVec 16

/-- A byte address on the memory port: 10 bits cover the 1024-byte image exactly (rules R11 and R28). -/
abbrev Addr := BitVec 10

end Sys2Proof
end

