-- ==== Sys2Proof/Machine/Flags.lean ====
section
/-! DEFINITION. The condition flags (rules R19 to R21, `10_state.md`) and the one computation that writes them, CR's
(R77, `42_arithmetic.md`). AD and SU write no flag (R20, D11). -/

namespace Sys2Proof.Machine

/-- `Z`, bit 0 (R20). -/
def flagZ (f : Byte) : Bool := f.getLsbD 0
/-- `B`, bit 1, the borrow that JB tests (R20, R21). -/
def flagB (f : Byte) : Bool := f.getLsbD 1
/-- `S`, bit 2 (R20). -/
def flagS (f : Byte) : Bool := f.getLsbD 2

/-- `cmp_flags(acc, w)`: with `r = (acc - w) mod 2^32`, the byte `{0b00000, r[31], (acc < w), (r = 0)}`, the
comparison unsigned (R77). -/
def cmpFlags (acc w : Word) : Byte :=
  0#5 ++ BitVec.ofBool ((acc - w).getLsbD 31) ++ BitVec.ofBool (BitVec.ult acc w) ++ BitVec.ofBool (acc - w == 0#32)

end Sys2Proof.Machine
end

