-- ==== Sys2Proof/Config.lean ====
section
/-! DEFINITION. The constants of the hardware (rules R4 and R5, `00_scope.md`) and its one parameter, `EXT_CONTROL`
(rule R7). The geometry is fixed: "constants of the hardware, not parameters a model may vary". -/

namespace Sys2Proof

/-- `WORD_BYTES` (R4). -/
abbrev wordBytes : Nat := 4
/-- `BLOCK_WORDS` (R4). -/
abbrev blockWords : Nat := 16
/-- `BLOCK_BYTES` (R4). -/
abbrev blockBytes : Nat := 64
/-- `IMAGE_BLOCKS` (R4). -/
abbrev imageBlocks : Nat := 16
/-- `IMAGE_BYTES` (R4). -/
abbrev imageBytes : Nat := 1024
/-- `PARAM_BLOCKS` (R4). -/
abbrev paramBlocks : Nat := 1
/-- `DATA_BLOCKS` (R4). -/
abbrev dataBlocks : Nat := 7
/-- `CODE_BLOCKS` (R4). -/
abbrev codeBlocks : Nat := 6
/-- `RESERVED_BLOCKS` (R4). -/
abbrev reservedBlocks : Nat := 2
/-- `INSTR_BYTES` (R4). -/
abbrev instrBytes : Nat := 4
/-- `CODE_SLOTS` (R4): "384 bytes / 4 = 96 instruction slots". -/
abbrev codeSlots : Nat := 96
/-- `OPERAND_MAX` (R4). -/
abbrev operandMax : Nat := 15
/-- `CODE_BASE` (R5): the byte offset of code slot 0; 512 by `90_conflicts.md` C1 (log entry 1). -/
abbrev codeBase : Nat := 512

/-- The four regions of the image (R29). The core enforces nothing about them (R30). -/
inductive Region where
  | parameters
  | data
  | code
  | reserved
  deriving DecidableEq, Repr

/-- The parameters a model takes as arguments. They are fixed for a machine: no step changes them. -/
structure Config where
  /-- `EXT_CONTROL` (R7): `false` is the document's current design, in which CR, JB and HALT fault
  (`UnimplementedInstruction`); `true` gives them the semantics of R77, R80 and R81. -/
  extControl : Bool
  deriving DecidableEq, Repr

/-- The default value of the parameter (R7: "`EXT_CONTROL = false` (the default, and the document's current
design)"). -/
def Config.default : Config := { extControl := false }

end Sys2Proof
end

