-- ==== Sys2Proof/Syntax.lean ====
section
/-! DEFINITION. The instructions: one constructor per row of the opcode map (rule R53, `30_encoding.md`;
`spec/opcode_table.json`). Format `O` carries the two operand bytes `x` (block number) and `y` (word number in the
block), each any byte (rules R50 and R54); format `N`, HALT, carries none (rule R51). -/

namespace Sys2Proof

/-- The eight instructions. -/
inductive Instr where
  /-- LR x y, "Load Register" (R72). -/
  | lr (x y : Byte)
  /-- SR x y, "Store Register" (R73). -/
  | sr (x y : Byte)
  /-- AD x y, "Add" (R75). -/
  | ad (x y : Byte)
  /-- SU x y, "Subtract" (R76). -/
  | su (x y : Byte)
  /-- CR x y, "Compare" (R77). -/
  | cr (x y : Byte)
  /-- JP x y, "Jump" (R79). -/
  | jp (x y : Byte)
  /-- JB x y, "Jump-if-Below" (R80). -/
  | jb (x y : Byte)
  /-- HALT (R81). -/
  | halt
  deriving DecidableEq, Repr

/-- The decoder's `op` output without its operands (R52); `ILLEGAL` is the decoder's rejection, not an operation. -/
inductive Mnemonic where
  | LR
  | SR
  | AD
  | SU
  | CR
  | JP
  | JB
  | HALT
  deriving DecidableEq, Repr

/-- The mnemonic of an instruction. -/
def Instr.mnemonic : Instr → Mnemonic
  | .lr _ _ => .LR
  | .sr _ _ => .SR
  | .ad _ _ => .AD
  | .su _ _ => .SU
  | .cr _ _ => .CR
  | .jp _ _ => .JP
  | .jb _ _ => .JB
  | .halt => .HALT

/-- The operand pair `(x, y)` of a format `O` instruction (R50); none for HALT (R51). -/
def Instr.operands : Instr → Option (Byte × Byte)
  | .lr x y => some (x, y)
  | .sr x y => some (x, y)
  | .ad x y => some (x, y)
  | .su x y => some (x, y)
  | .cr x y => some (x, y)
  | .jp x y => some (x, y)
  | .jb x y => some (x, y)
  | .halt => none

/-- The decoder's `has_operands` output (R52). -/
def Instr.hasOperands (i : Instr) : Bool := i.operands.isSome

/-- CR, JB and HALT: the instructions whose behaviour `EXT_CONTROL` selects (R7). -/
def Mnemonic.extControlled : Mnemonic → Bool
  | .LR => false
  | .SR => false
  | .AD => false
  | .SU => false
  | .CR => true
  | .JP => false
  | .JB => true
  | .HALT => true

end Sys2Proof
end

