-- ==== Sys2Proof/WellFormed.lean ====
section
/-! DEFINITION. Well-formed instructions: those whose operand bytes are both "meaningful" (rule R4 `OPERAND_MAX`, and
rule R40: "both in `[0, 255]` but only values `[0, 15]` are meaningful"). An ill-formed instruction still assembles,
decodes and runs (rules R54 and R60): it raises `OperandOutOfRange` (R40). No law about decoding assumes
well-formedness. -/

namespace Sys2Proof

/-- One operand byte lies in `[0, OPERAND_MAX]` (R4, R40). -/
def operandByteOk (b : Byte) : Bool := decide (b.toNat ≤ operandMax)

/-- Both operand bytes lie in range; HALT has none to check (R51). -/
def Instr.wellFormed : Instr → Bool
  | .lr x y => operandByteOk x && operandByteOk y
  | .sr x y => operandByteOk x && operandByteOk y
  | .ad x y => operandByteOk x && operandByteOk y
  | .su x y => operandByteOk x && operandByteOk y
  | .cr x y => operandByteOk x && operandByteOk y
  | .jp x y => operandByteOk x && operandByteOk y
  | .jb x y => operandByteOk x && operandByteOk y
  | .halt => true

end Sys2Proof
end

