-- ==== Sys2Proof/Decode.lean ====
section
/-! DEFINITION. The decoder (rules R49 to R59, `30_encoding.md`), the encoder written from the same table, and the
byte order that ties an instruction's four bytes to the fetched word (rules R32 and R33). -/

namespace Sys2Proof

/-! ### Byte order -/

/-- Byte 0 of a word, at its lowest address: `w[31:24]` (R9, R32, R33). -/
def byte0 (w : Word) : Byte := w.extractLsb' 24 8
/-- Byte 1: `w[23:16]`. -/
def byte1 (w : Word) : Byte := w.extractLsb' 16 8
/-- Byte 2: `w[15:8]`. -/
def byte2 (w : Word) : Byte := w.extractLsb' 8 8
/-- Byte 3, at its highest address: `w[7:0]`. -/
def byte3 (w : Word) : Byte := w.extractLsb' 0 8

/-- The big-endian word `{b0, b1, b2, b3}` (R9, R32). -/
def wordOfBytes (b0 b1 b2 b3 : Byte) : Word := b0 ++ b1 ++ b2 ++ b3

/-! ### The decoder -/

/-- Why the decoder gives no instruction. -/
inductive DecodeReject where
  /-- `ILLEGAL`: the word matches no row of the opcode map (R56). -/
  | illegal (w : Word)
  /-- Fewer than the four bytes of an instruction were offered; no fetch offers fewer (R49). -/
  | truncated
  deriving DecidableEq, Repr

/-- The closed match of R52 and R53 on the instruction's four bytes: `"Decoding is a closed match over the first two
(or four) bytes"`. The letters are upper-case ASCII, matched exactly (R55). -/
def decodeFour (b0 b1 b2 b3 : Byte) : Except DecodeReject Instr :=
  if b0 = 0x4C#8 ∧ b1 = 0x52#8 then .ok (.lr b2 b3)
  else if b0 = 0x53#8 ∧ b1 = 0x52#8 then .ok (.sr b2 b3)
  else if b0 = 0x41#8 ∧ b1 = 0x44#8 then .ok (.ad b2 b3)
  else if b0 = 0x53#8 ∧ b1 = 0x55#8 then .ok (.su b2 b3)
  else if b0 = 0x43#8 ∧ b1 = 0x52#8 then .ok (.cr b2 b3)
  else if b0 = 0x4A#8 ∧ b1 = 0x50#8 then .ok (.jp b2 b3)
  else if b0 = 0x4A#8 ∧ b1 = 0x42#8 then .ok (.jb b2 b3)
  else if b0 = 0x48#8 ∧ b1 = 0x41#8 ∧ b2 = 0x4C#8 ∧ b3 = 0x54#8 then .ok .halt
  else .error (.illegal (wordOfBytes b0 b1 b2 b3))

/-- The decoder: a stateless function of the fetched word alone (R52), total on all of them (R58). Whether CR, JB and
HALT execute (R57) is not decoded here: the decoder names them under both values of `EXT_CONTROL`. -/
def decode (w : Word) : Except DecodeReject Instr :=
  decodeFour (byte0 w) (byte1 w) (byte2 w) (byte3 w)

/-- The decoder on a byte stream: the instruction and the bytes after it. Every instruction is exactly four bytes
long (R49). -/
def decodeBytes : List Byte → Except DecodeReject (Instr × List Byte)
  | b0 :: b1 :: b2 :: b3 :: rest =>
    match decodeFour b0 b1 b2 b3 with
    | .ok i => .ok (i, rest)
    | .error r => .error r
  | _ => .error .truncated

/-! ### The encoder -/

/-- The word of an instruction: `MN x y` is `{m0, m1, x, y}` and HALT is 0x48414C54 (R60, from R50, R51, R53). -/
def encode : Instr → Word
  | .lr x y => wordOfBytes 0x4C#8 0x52#8 x y
  | .sr x y => wordOfBytes 0x53#8 0x52#8 x y
  | .ad x y => wordOfBytes 0x41#8 0x44#8 x y
  | .su x y => wordOfBytes 0x53#8 0x55#8 x y
  | .cr x y => wordOfBytes 0x43#8 0x52#8 x y
  | .jp x y => wordOfBytes 0x4A#8 0x50#8 x y
  | .jb x y => wordOfBytes 0x4A#8 0x42#8 x y
  | .halt => wordOfBytes 0x48#8 0x41#8 0x4C#8 0x54#8

/-- The four bytes of an instruction in image order (R33). -/
def encodeBytes (i : Instr) : List Byte :=
  [byte0 (encode i), byte1 (encode i), byte2 (encode i), byte3 (encode i)]

/-! ### The opcode map as data -/

/-- One row of the opcode map: a word fits the row when `(instr & mask) = match` (R53). -/
structure OpcodeRow where
  mnemonic : Mnemonic
  matchBits : Word
  mask : Word
  deriving DecidableEq, Repr

/-- The word matches the row (R53). -/
def OpcodeRow.fits (r : OpcodeRow) (w : Word) : Bool := w &&& r.mask == r.matchBits

/-- The eight rows of R53, in the table's order. -/
def opcodeMap : List OpcodeRow :=
  [⟨.LR, 0x4C520000#32, 0xFFFF0000#32⟩, ⟨.SR, 0x53520000#32, 0xFFFF0000#32⟩,
   ⟨.AD, 0x41440000#32, 0xFFFF0000#32⟩, ⟨.SU, 0x53550000#32, 0xFFFF0000#32⟩,
   ⟨.CR, 0x43520000#32, 0xFFFF0000#32⟩, ⟨.JP, 0x4A500000#32, 0xFFFF0000#32⟩,
   ⟨.JB, 0x4A420000#32, 0xFFFF0000#32⟩, ⟨.HALT, 0x48414C54#32, 0xFFFFFFFF#32⟩]

/-! ### The host's question -/

/-- What the decoder reads from the instruction whose bits are `w`, numbered as `spec/opcode_table.json` numbers them:
its match and mask number the fetched word, byte 0 being `[31:24]`, so the four bytes lie in the image in that
order (R33). Bits at and above `nbits` are zero. -/
def decodeTableWord (nbits w : Nat) : Option Instr :=
  let word : Word := BitVec.ofNat 32 (w % 2 ^ nbits)
  match decodeBytes [byte0 word, byte1 word, byte2 word, byte3 word] with
  | .ok (i, _) => some i
  | .error _ => none

end Sys2Proof
end

