-- ==== Sys2Proof/Machine/State.lean ====
section
/-! DEFINITION. The state of the core (rules R12 to R27, `10_state.md`), its reset value (R27, R93), and the reasons a
step can stop (R83, `60_exceptions.md`). -/

namespace Sys2Proof.Machine

/-- The fault kinds of R83. `malformedProgramImage` is a construction-time kind only, never a step outcome (R84). -/
inductive FaultKind where
  | malformedProgramImage
  | unrecognizedInstruction
  | unimplementedInstruction
  | programCounterOutOfBounds
  | programCounterOverflow
  | operandOutOfRange
  deriving DecidableEq, Repr

/-- `Faulted(kind, pc, raw)` (R10, R83): every step fault records the step's `pc`, and the fetched word where one was
fetched. A faulted step applies nothing (R68), so a fault carries no state; there is no trap entry (R88). -/
inductive Fault where
  /-- Raised by any step whose fetched word matches no row of the opcode map (R56). Safe where the hardware would
  accept more words, lower-case letters for one (`92_eei_decisions.md` D15). -/
  | unrecognizedInstruction (pc : Slot) (raw : Word)
  /-- Raised by CR, JB and HALT when `EXT_CONTROL = false` (R57, R77, R80, R81). Safe: the machine stops where a
  later design would go on (D7). -/
  | unimplementedInstruction (pc : Slot) (raw : Word)
  /-- Raised by any step whose `pc` is 96 or more when it fetches; no word is fetched (R42). Unsafe for a claim about
  WHICH step faults: a design that faults at the jump or the increment faults one step earlier (D4, log entry 4). -/
  | programCounterOutOfBounds (pc : Slot)
  /-- Raised by JP, and by a taken JB, whose target word exceeds 0xFFFF (R79, R80). Safe: it stops where a truncating
  design would go on (D5). -/
  | programCounterOverflow (pc : Slot) (raw : Word)
  /-- Raised by LR, SR, AD, SU, JP (and CR, JB with `EXT_CONTROL = true`) with an operand byte above 15 (R40). Safe:
  it stops where a design that lets operand pairs alias would go on (D6). -/
  | operandOutOfRange (pc : Slot) (raw : Word)
  deriving DecidableEq, Repr

/-- Why a step has no meaning in this model. -/
inductive Refusal where
  /-- Raised by the arms of `exec` for an instruction that has no meaning yet: no arm at present. Safe. -/
  | notModelled (mnemonic : String)
  deriving DecidableEq, Repr

/-- What the `status` port shows for a step that did not fault (R10, R11): `Continued` or `Halted`. A faulted step
gives no next state, and its status is in its outcome. -/
inductive StepStatus where
  | continued
  | halted
  deriving DecidableEq, Repr

/-- The program image `M` (R13) as the bytes that differ from what an unlisted address reads as, addresses strictly
rising (`Memory.wf`, Machine/Ops.lean). -/
abbrev Memory := List Host.Cell

/-- The state: the five pieces of R12, and two fields of the model's own, `config` and `status`, that R12 does not
count as state (log entries 7 and 8). -/
structure State where
  /-- `pc`: the 16-bit instruction-slot index (R14). -/
  pc : Slot
  /-- `acc`: the 32-bit accumulator (R18). -/
  acc : Word
  /-- `flags`: the 8-bit condition flags (R19, R20). -/
  flags : Byte
  /-- `sp`: the 8-bit stack pointer, which no instruction reads or writes (R22). -/
  sp : Byte
  /-- `M`: the 1024-byte program image (R13). -/
  mem : Memory
  /-- The model's own: the parameter of R7, held here because `exec` takes no other argument. No step changes it. -/
  config : Config
  /-- The model's own: the `status` port (R11) after the latest step that did not fault, so that `Halted` and
  `Continued` are told apart (R10). No step reads it. -/
  status : StepStatus
  deriving DecidableEq, Repr

/-- The machine right after reset (R27, R93, R94): all registers zero and `pc` at slot 0, in the default
configuration (R7). The image is the one with nothing listed, every byte as an unlisted byte reads: the image is the
host's to supply (R93), and `State.construct` (Machine/Boot.lean) is the reset that takes one (log entry 6). -/
def State.reset : State where
  pc := 0#16
  acc := 0#32
  flags := 0#8
  sp := 0#8
  mem := []
  config := Config.default
  status := .continued

end Sys2Proof.Machine
end

