-- ==== Sys2Proof/Machine/Ops.lean ====
section
/-! DEFINITION. The named operations over memory and registers: word access to the image (rules R9, R32 to R37), the
program-counter mux (R66), the commit of a step's planned writes (R67), raising a fault (R68, R82 to R88), the gate
of `EXT_CONTROL` (R57) and the Halted outcome (R69). -/

namespace Sys2Proof.Machine

/-! ### The image -/

/-- What a byte that no cell lists reads as. DESIGN CHOICE (log entry 6): the spec leaves the image's contents to the
host; its test vectors list images as "zero elsewhere". -/
def unlistedByte : Byte := 0#8

/-- Reading image byte `a`: `M[a]` (R9). -/
def Memory.readByte : Memory → Nat → Byte
  | [], _ => unlistedByte
  | (k, v) :: rest, a => if k = a then v else Memory.readByte rest a

/-- The memory with no cell for address `a`. -/
def Memory.eraseCell : Memory → Nat → Memory
  | [], _ => []
  | (k, v) :: rest, a => if k = a then Memory.eraseCell rest a else (k, v) :: Memory.eraseCell rest a

/-- A cell put before the first cell of a higher address. -/
def Memory.insertCell : Memory → Nat → Byte → Memory
  | [], a, v => [(a, v)]
  | (k, u) :: rest, a, v => if a < k then (a, v) :: (k, u) :: rest else (k, u) :: Memory.insertCell rest a v

/-- Writing image byte `a`, keeping the canonical form: a byte equal to what an unlisted address reads as is not
listed. -/
def Memory.writeByte (m : Memory) (a : Nat) (v : Byte) : Memory :=
  if v = unlistedByte then m.eraseCell a else (m.eraseCell a).insertCell a v

/-- `MemRead(a, 4)`: the big-endian word at `a` (R9, R32). Every access is one 4-byte word (R34). -/
def Memory.readWord (m : Memory) (a : Addr) : Word :=
  wordOfBytes (m.readByte a.toNat) (m.readByte (a.toNat + 1)) (m.readByte (a.toNat + 2)) (m.readByte (a.toNat + 3))

/-- `MemWrite(a, 4, v)`: the big-endian word `v` at `a` (R9, R32, R73). -/
def Memory.writeWord (m : Memory) (a : Addr) (v : Word) : Memory :=
  (((m.writeByte a.toNat (byte0 v)).writeByte (a.toNat + 1) (byte1 v)).writeByte (a.toNat + 2) (byte2 v)).writeByte
    (a.toNat + 3) (byte3 v)

/-- The canonical form of a memory whose addresses start at `lo`: strictly rising, inside the 1024-byte image (R28),
and no cell that says what an unlisted address reads as. -/
def Memory.wfFrom (lo : Nat) : Memory → Bool
  | [] => true
  | (a, v) :: rest => decide (lo ≤ a) && decide (a < imageBytes) && decide (v ≠ unlistedByte) && Memory.wfFrom (a + 1) rest

/-- The canonical form of a memory. -/
def Memory.wf (m : Memory) : Bool := Memory.wfFrom 0 m

/-! ### The program-counter mux -/

/-- The select of the PCMUX (R66). -/
inductive PcSelect where
  /-- `pc + 1`. -/
  | seq
  /-- The narrowed operand word. -/
  | jump (target : Slot)
  /-- `pc` unchanged. -/
  | hold
  deriving DecidableEq, Repr

/-- The PCMUX (R66): the incrementer is 16 bits wide, and its sum never wraps after a fetch (R17). -/
def pcMux (sel : PcSelect) (pc : Slot) : Slot :=
  match sel with
  | .seq => pc + 1#16
  | .jump target => target
  | .hold => pc

/-! ### Commit -/

/-- The planned writes of one step, `acc'`, `flags'`, `W` and `sel` in the pseudocode of R63. -/
structure Plan where
  acc : Word
  flags : Byte
  store : Option (Addr × Word)
  sel : PcSelect
  deriving DecidableEq, Repr

/-- The plan a step starts from (R63): `acc' <- acc; flags' <- flags; W <- none; sel <- SEQ`. -/
def Plan.start (s : State) : Plan := { acc := s.acc, flags := s.flags, store := none, sel := .seq }

/-- The image after a planned store, if there is one. -/
def applyStore (m : Memory) (store : Option (Addr × Word)) : Memory :=
  match store with
  | none => m
  | some (a, v) => m.writeWord a v

/-- The commit (R67): a step that returns `Continued` applies all its planned writes at once. -/
def commit (p : Plan) (s : State) : State :=
  { s with
    pc := pcMux p.sel s.pc
    acc := p.acc
    flags := p.flags
    mem := applyStore s.mem p.store
    status := .continued }

/-- A step that returns `Halted` changes nothing, `pc` included (R69): the PCMUX selects `HOLD` (R66), and the
`status` port shows `Halted`. -/
def haltStep (s : State) : State :=
  { s with pc := pcMux .hold s.pc, status := .halted }

/-! ### Faults -/

/-- Taking a fault, the machine's only exception (R82, R88): the step ends with `Faulted(kind, pc, raw)`, applies
nothing (R68), and control passes to no address. `kind` is the constructor, `pc` the step's, `raw` the word of the
instruction `i` being executed, which is the word the step fetched. There is no return from a fault (R89). -/
def raiseFault (kind : Slot → Word → Fault) (i : Instr) (s : State) : Host.Outcome State Fault Refusal :=
  .fault (kind s.pc (encode i))

/-- CR, JB and HALT execute only with `EXT_CONTROL = true`; with `false` they raise `UnimplementedInstruction`, before
the operand bytes are checked (R57). -/
def whenExtControl (i : Instr) (s : State) (body : Host.Outcome State Fault Refusal) : Host.Outcome State Fault Refusal :=
  if s.config.extControl then body else raiseFault .unimplementedInstruction i s

end Sys2Proof.Machine
end

