-- ==== Sys2Proof/Machine/Operands.lean ====
section
/-! DEFINITION. The memory address translator (rules R38 to R41, `20_memory.md`), the one operand form of the machine
(the absolute word `(x, y)`), the regions it reaches (R29), the fetch unit (R42, R43), and the narrowing of a word to
a jump target (R78, R79). -/

namespace Sys2Proof.Machine

/-! ### The memory address translator (MAT) -/

/-- The MAT (R38 to R40): `ea = {x[3:0], y[3:0], 0b00}`, or none, the fault `OperandOutOfRange`, when
`x[7:4] != 0` or `y[7:4] != 0`. -/
def translateOperands (x y : Byte) : Option Addr :=
  if x.extractLsb' 4 4 ≠ 0#4 ∨ y.extractLsb' 4 4 ≠ 0#4 then none
  else some (x.extractLsb' 0 4 ++ y.extractLsb' 0 4 ++ 0#2)

/-- Executing with the operand word's address: every instruction with an operand pair uses the MAT once (R38), and a
byte out of range ends the step with nothing applied (R40). -/
def withOperand (i : Instr) (x y : Byte) (s : State) (body : Addr → Host.Outcome State Fault Refusal) :
    Host.Outcome State Fault Refusal :=
  match translateOperands x y with
  | none => raiseFault .operandOutOfRange i s
  | some ea => body ea

/-- The region of a byte offset (R29). The core gives regions no distinct behaviour (R30, R31). -/
def regionOf (a : Nat) : Region :=
  if a < paramBlocks * blockBytes then .parameters
  else if a < (paramBlocks + dataBlocks) * blockBytes then .data
  else if a < (paramBlocks + dataBlocks + codeBlocks) * blockBytes then .code
  else .reserved

/-- The operand pair that names the word of code slot `k`: `(8 + k / 16, k mod 16)` (R41). -/
def slotOperand (k : Nat) : Byte × Byte := (BitVec.ofNat 8 (8 + k / 16), BitVec.ofNat 8 (k % 16))

/-! ### The instruction fetch unit (IFU) -/

/-- The byte address of slot `pc`: `512 + 4 * pc` (R5, R42). -/
def fetchAddr (pc : Slot) : Addr := BitVec.ofNat 10 (codeBase + instrBytes * pc.toNat)

/-- The IFU (R42): `ProgramCounterOutOfBounds` when `pc >= 96`, with nothing read; otherwise the word of the slot, read
from the image as it now stands (R43). -/
def fetch (s : State) : Except Fault Word :=
  if codeSlots ≤ s.pc.toNat then .error (.programCounterOutOfBounds s.pc)
  else .ok (s.mem.readWord (fetchAddr s.pc))

/-! ### Jump targets -/

/-- The narrowing of a word to a program-counter target (R78, R79): a word above 0xFFFF does not fit, and no bit is
ever dropped (`90_conflicts.md` C3). -/
def jumpTarget (w : Word) : Option Slot :=
  if 0xFFFF < w.toNat then none else some (w.extractLsb' 0 16)

/-- Jumping to the slot held in the operand word at `ea` (R79): `ProgramCounterOverflow` when the word does not fit.
A target of 96 or more is accepted; the next fetch faults (R15). -/
def jumpVia (i : Instr) (ea : Addr) (s : State) : Host.Outcome State Fault Refusal :=
  match jumpTarget (s.mem.readWord ea) with
  | none => raiseFault .programCounterOverflow i s
  | some target => .next (commit { Plan.start s with sel := .jump target } s)

end Sys2Proof.Machine
end

