-- ==== Sys2Proof/Machine/Arithmetic.lean ====
section
/-! DEFINITION. Arithmetic and compare (rules R74 to R77, `42_arithmetic.md`): 32 bits, unsigned, modulo 2^32, with no
overflow fault. -/

namespace Sys2Proof.Machine

/-- AD x y (R75): `acc <- (acc + MemRead(EA(x, y), 4)) mod 2^32; pc <- pc + 1`. No flag is written. -/
def execAd (x y : Byte) (s : State) : Host.Outcome State Fault Refusal :=
  withOperand (.ad x y) x y s fun ea => .next (commit { Plan.start s with acc := s.acc + s.mem.readWord ea } s)

/-- SU x y (R76): `acc <- (acc - MemRead(EA(x, y), 4)) mod 2^32; pc <- pc + 1`. No flag is written. -/
def execSu (x y : Byte) (s : State) : Host.Outcome State Fault Refusal :=
  withOperand (.su x y) x y s fun ea => .next (commit { Plan.start s with acc := s.acc - s.mem.readWord ea } s)

/-- CR x y (R77): with `EXT_CONTROL = true`, `flags <- cmp_flags(acc, MemRead(EA(x, y), 4)); pc <- pc + 1`, `acc` read
and not written; with `false`, `UnimplementedInstruction`. -/
def execCr (x y : Byte) (s : State) : Host.Outcome State Fault Refusal :=
  whenExtControl (.cr x y) s <|
    withOperand (.cr x y) x y s fun ea =>
      .next (commit { Plan.start s with flags := cmpFlags s.acc (s.mem.readWord ea) } s)

end Sys2Proof.Machine
end

