-- ==== Sys2Proof/Machine/Control.lean ====
section
/-! DEFINITION. Control transfer (rules R78 to R81, `43_control.md`). -/

namespace Sys2Proof.Machine

/-- JP x y (R79): `w <- MemRead(EA(x, y), 4)`; `ProgramCounterOverflow` if `w > 0xFFFF`; `pc <- w[15:0]`. -/
def execJp (x y : Byte) (s : State) : Host.Outcome State Fault Refusal :=
  withOperand (.jp x y) x y s fun ea => jumpVia (.jp x y) ea s

/-- JB x y (R80): with `EXT_CONTROL = true`, as JP when `flags[1] = 1` and otherwise `pc <- pc + 1`, the operand bytes
checked either way and the target word only when the jump is taken; with `false`, `UnimplementedInstruction`. -/
def execJb (x y : Byte) (s : State) : Host.Outcome State Fault Refusal :=
  whenExtControl (.jb x y) s <|
    withOperand (.jb x y) x y s fun ea =>
      if flagB s.flags then jumpVia (.jb x y) ea s else .next (commit (Plan.start s) s)

/-- HALT (R81): with `EXT_CONTROL = true` the step returns `Halted` and changes nothing; with `false`,
`UnimplementedInstruction`. -/
def execHalt (s : State) : Host.Outcome State Fault Refusal :=
  whenExtControl .halt s (.next (haltStep s))

end Sys2Proof.Machine
end

