-- ==== Sys2Proof/Machine/LoadStore.lean ====
section
/-! DEFINITION. Load and store (rules R72 and R73, `41_load_store.md`). -/

namespace Sys2Proof.Machine

/-- LR x y (R72): `acc <- MemRead(EA(x, y), 4); pc <- pc + 1`. -/
def execLr (x y : Byte) (s : State) : Host.Outcome State Fault Refusal :=
  withOperand (.lr x y) x y s fun ea => .next (commit { Plan.start s with acc := s.mem.readWord ea } s)

/-- SR x y (R73): `MemWrite(EA(x, y), 4, acc); pc <- pc + 1`. -/
def execSr (x y : Byte) (s : State) : Host.Outcome State Fault Refusal :=
  withOperand (.sr x y) x y s fun ea => .next (commit { Plan.start s with store := some (ea, s.acc) } s)

end Sys2Proof.Machine
end

