-- ==== Sys2Proof/Machine/Dispatch.lean ====
section
/-! DEFINITION. One arm per instruction. -/

namespace Sys2Proof.Machine

/-- What executing an instruction does (the `case op of` of R63). -/
def exec (i : Instr) (s : State) : Host.Outcome State Fault Refusal :=
  match i with
  | .lr x y => Sys2Proof.Machine.execLr x y s
  | .sr x y => Sys2Proof.Machine.execSr x y s
  | .ad x y => Sys2Proof.Machine.execAd x y s
  | .su x y => Sys2Proof.Machine.execSu x y s
  | .cr x y => Sys2Proof.Machine.execCr x y s
  | .jp x y => Sys2Proof.Machine.execJp x y s
  | .jb x y => Sys2Proof.Machine.execJb x y s
  | .halt => Sys2Proof.Machine.execHalt s

end Sys2Proof.Machine
end

