-- ==== Sys2Proof/Machine/Step.lean ====
section
/-! DEFINITION. One `advance` (rules R62 and R63, `40_cycle.md`): fetch, decode, execute. -/

namespace Sys2Proof.Machine

/-- One `advance` (R63): the IFU, the decoder, then the instruction's execution. A word that is no instruction raises
`UnrecognizedInstruction` with the step's `pc` and the raw word (R56). -/
def step (s : State) : Host.Outcome State Fault Refusal :=
  match fetch s with
  | .error r => .fault r
  | .ok w =>
    match decode w with
    | .error _ => .fault (.unrecognizedInstruction s.pc w)
    | .ok i => exec i s

/-- The state with the instruction of bits `w` (numbered as `spec/opcode_table.json` numbers them, bits at and above
`nbits` zero) in the slot the next step fetches. A `pc` that names no slot (R15) is set to the entry point, slot 0,
since no fetch happens there (R42). -/
def State.withFetchWord (s : State) (nbits w : Nat) : State :=
  let pc : Slot := if codeSlots ≤ s.pc.toNat then 0#16 else s.pc
  { s with pc := pc, mem := s.mem.writeWord (fetchAddr pc) (BitVec.ofNat 32 (w % 2 ^ nbits)) }

end Sys2Proof.Machine
end

