-- ==== Sys2Proof/Machine/Assembler.lean ====
section
/-! DEFINITION. The assembly notation (rules R60 and R61, `30_encoding.md`): a mnemonic in upper case and two operand
bytes separated by white space, HALT alone, and the spec's own `.word v`. Text is a list of characters. There are no
pseudo-instructions (R61). Nothing of the machine depends on this file. -/

namespace Sys2Proof.Machine

/-- White space between the parts of a line: blank and tab (log entry 12). -/
def isBlank (c : Char) : Bool := c == ' ' || c == '\t'

/-- The non-blank runs of a line, `cur` being the run read so far, last character first. -/
def tokensFrom (cur : List Char) : List Char → List (List Char)
  | [] => if cur.isEmpty then [] else [cur.reverse]
  | c :: cs =>
    if isBlank c then
      if cur.isEmpty then tokensFrom [] cs else cur.reverse :: tokensFrom [] cs
    else tokensFrom (c :: cur) cs

/-- The value of a digit in the given base, 10 or 16. -/
def digitValue (base : Nat) (c : Char) : Option Nat :=
  let n := c.toNat
  let v :=
    if 48 ≤ n ∧ n ≤ 57 then n - 48
    else if 97 ≤ n ∧ n ≤ 102 then n - 87
    else if 65 ≤ n ∧ n ≤ 70 then n - 55
    else base
  if v < base then some v else none

/-- The number a digit string continues from `acc`. -/
def digitsValue (base acc : Nat) : List Char → Option Nat
  | [] => some acc
  | c :: cs => (digitValue base c).bind fun d => digitsValue base (acc * base + d) cs

/-- A decimal or `0x`-prefixed hexadecimal number (R60). -/
def parseNumber : List Char → Option Nat
  | [] => none
  | ['0', 'x'] => none
  | '0' :: 'x' :: ds => digitsValue 16 0 ds
  | ds => digitsValue 10 0 ds

/-- An operand: a number in `[0, 255]` (R60). -/
def parseOperand (t : List Char) : Option Byte :=
  (parseNumber t).bind fun n => if n ≤ 255 then some (BitVec.ofNat 8 n) else none

/-- The format `O` instruction a mnemonic names. -/
def mnemonicForm : List Char → Option (Byte → Byte → Instr)
  | ['L', 'R'] => some .lr
  | ['S', 'R'] => some .sr
  | ['A', 'D'] => some .ad
  | ['S', 'U'] => some .su
  | ['C', 'R'] => some .cr
  | ['J', 'P'] => some .jp
  | ['J', 'B'] => some .jb
  | _ => none

/-- The instruction a line spells (R60). An operand above 15 assembles; it faults when executed (R40). -/
def parseInstr (line : List Char) : Option Instr :=
  match tokensFrom [] line with
  | [t] => if t = ['H', 'A', 'L', 'T'] then some .halt else none
  | [m, x, y] =>
    (mnemonicForm m).bind fun form => (parseOperand x).bind fun a => (parseOperand y).map fun b => form a b
  | _ => none

/-- The word a line assembles to: an instruction's encoding (R60), or the data word of `.word v`. -/
def assemble (line : List Char) : Option Word :=
  match tokensFrom [] line with
  | [['.', 'w', 'o', 'r', 'd'], v] => (parseNumber v).bind fun n => if n < 2 ^ 32 then some (BitVec.ofNat 32 n) else none
  | _ => (parseInstr line).map encode

/-- One decimal digit. -/
def digitChar (d : Nat) : Char := Char.ofNat (48 + d)

/-- A byte in decimal, as the document writes operands (R60). -/
def renderByte (b : Byte) : List Char :=
  let n := b.toNat
  if n < 10 then [digitChar n]
  else if n < 100 then [digitChar (n / 10), digitChar (n % 10)]
  else [digitChar (n / 100), digitChar (n / 10 % 10), digitChar (n % 10)]

/-- The letters of a mnemonic. -/
def mnemonicLetters : Mnemonic → List Char
  | .LR => ['L', 'R']
  | .SR => ['S', 'R']
  | .AD => ['A', 'D']
  | .SU => ['S', 'U']
  | .CR => ['C', 'R']
  | .JP => ['J', 'P']
  | .JB => ['J', 'B']
  | .HALT => ['H', 'A', 'L', 'T']

/-- An instruction as text: the mnemonic, then for format `O` the operands `x` and `y` in that order (R60). -/
def renderInstr (i : Instr) : List Char :=
  match i.operands with
  | none => mnemonicLetters i.mnemonic
  | some (x, y) => mnemonicLetters i.mnemonic ++ ' ' :: renderByte x ++ ' ' :: renderByte y

end Sys2Proof.Machine
end

