-- ==== Sys2Proof/Machine/Boot.lean ====
section
/-! DEFINITION. The program image as a value, the loader, and reset, which is construction from an image (rules R84,
R93 to R96, `60_exceptions.md` and `70_reset_and_hazards.md`). -/

namespace Sys2Proof.Machine

/-- A program image: 1024 bytes (R84: "A model takes the image as a 1024-byte value"). "No header, no magic number, no
checksum" (R96). -/
structure Image where
  bytes : List Byte
  size : bytes.length = imageBytes
  deriving DecidableEq, Repr

/-- The loader (R95): the byte sequence itself when it is 1024 bytes long, otherwise `MalformedProgramImage`; it never
truncates or pads. -/
def loadImage (b : List Byte) : Except FaultKind Image :=
  if h : b.length = imageBytes then .ok { bytes := b, size := h } else .error .malformedProgramImage

/-- The cells of a byte sequence laid out from address `a`, in canonical form. -/
def Memory.ofBytes (a : Nat) : List Byte → Memory
  | [] => []
  | b :: rest => if b = unlistedByte then Memory.ofBytes (a + 1) rest else (a, b) :: Memory.ofBytes (a + 1) rest

/-- The bytes at `n` addresses from `a`. -/
def Memory.bytesFrom (m : Memory) (a : Nat) : Nat → List Byte
  | 0 => []
  | n + 1 => m.readByte a :: m.bytesFrom (a + 1) n

/-- `reset(image)` (R93): `pc = 0`, `acc = 0`, `flags = 0`, `sp = 0`, `M = image`. Nothing of an earlier run is kept;
the configuration is the machine's (R7). -/
def State.construct (c : Config) (image : Image) : State :=
  { State.reset with mem := Memory.ofBytes 0 image.bytes, config := c }

/-- Construction from a byte sequence (R84, R95): the reset state of the image it is, or `MalformedProgramImage` and no
state at all. -/
def State.boot (c : Config) (b : List Byte) : Except FaultKind State :=
  match loadImage b with
  | .ok image => .ok (State.construct c image)
  | .error k => .error k

/-- The 1024 bytes of the image as the host reads them between steps (R97). -/
def State.imageBytesOf (s : State) : List Byte := s.mem.bytesFrom 0 imageBytes

end Sys2Proof.Machine
end

