-- ==== Sys2Proof/Machine/Ports.lean ====
section
/-! DEFINITION. The block seen from outside: the host's calls and their replies (rules R10, R93, R97), the output ports
(R11, R83, R87), and the transactions one step makes on the memory port (R11, R36, R45). Every definition here reads
the step; none adds to what the machine does. -/

namespace Sys2Proof.Machine

/-! ### The fault record -/

/-- The code the `fault_kind` port carries (R83). -/
def FaultKind.code : FaultKind → BitVec 4
  | .malformedProgramImage => 1#4
  | .unrecognizedInstruction => 2#4
  | .unimplementedInstruction => 3#4
  | .programCounterOutOfBounds => 4#4
  | .programCounterOverflow => 5#4
  | .operandOutOfRange => 6#4

/-- The kind of a step fault (R83). -/
def Fault.kind : Fault → FaultKind
  | .unrecognizedInstruction _ _ => .unrecognizedInstruction
  | .unimplementedInstruction _ _ => .unimplementedInstruction
  | .programCounterOutOfBounds _ => .programCounterOutOfBounds
  | .programCounterOverflow _ _ => .programCounterOverflow
  | .operandOutOfRange _ _ => .operandOutOfRange

/-- The `pc` of the faulted step (R83, R87). -/
def Fault.slot : Fault → Slot
  | .unrecognizedInstruction pc _ => pc
  | .unimplementedInstruction pc _ => pc
  | .programCounterOutOfBounds pc => pc
  | .programCounterOverflow pc _ => pc
  | .operandOutOfRange pc _ => pc

/-- The fetched word, none where no word was fetched (R83, R87). -/
def Fault.raw : Fault → Option Word
  | .unrecognizedInstruction _ w => some w
  | .unimplementedInstruction _ w => some w
  | .programCounterOutOfBounds _ => none
  | .programCounterOverflow _ w => some w
  | .operandOutOfRange _ w => some w

/-! ### The host's calls -/

/-- The result of one `advance`: exactly one of these (R10). -/
inductive StepResult where
  | continued
  | halted
  | faulted (kind : FaultKind) (pc : Slot) (raw : Option Word)
  deriving DecidableEq, Repr

/-- One `advance` with its reply (R97). A faulted step leaves the state as it was (R68). None only where the step has
no meaning in the model, which never happens. -/
def advance (s : State) : Option (State × StepResult) :=
  match step s with
  | .next t => some (t, match t.status with | .continued => .continued | .halted => .halted)
  | .fault r => some (s, .faulted r.kind r.slot r.raw)
  | .refused _ => none

/-- What the host may ask of the block: the `reset` and `advance` inputs (R11, R97). -/
inductive HostCall where
  | reset (image : Image)
  | advance
  deriving DecidableEq, Repr

/-- The state after a call and the reply, which `reset` has none of. The host writes neither registers nor image
otherwise (R97). -/
def respond (s : State) : HostCall → Option (State × Option StepResult)
  | .reset image => some (State.construct s.config image, none)
  | .advance => (advance s).map fun r => (r.1, some r.2)

/-! ### The output ports -/

/-- The output ports after a step (R11). `fault_pc`, `fault_raw` and `fault_raw_valid` are none where the step did not
fault: the spec states their value for a faulted step only (R11, R87), and leaving them without one is the model's
choice (DESIGN CHOICE, log entry 9). -/
structure OutPorts where
  status : BitVec 2
  faultKind : BitVec 4
  faultPc : Option Slot
  faultRaw : Option Word
  faultRawValid : Option Bool
  dbgAcc : Word
  dbgFlags : Byte
  dbgSp : Byte
  dbgPc : Slot
  deriving DecidableEq, Repr

/-- The output ports for a step's result and the state it leaves (R11, R87): `fault_kind` is 0 when not Faulted, and
on a faulted step that fetched no word `fault_raw` is 0 and `fault_raw_valid` is 0. After Continued and Halted the spec
states neither these two nor `fault_pc`, and none gets a value here (DESIGN CHOICE, log entry 9). -/
def outPorts (s : State) (r : StepResult) : OutPorts :=
  match r with
  | .continued => ⟨0#2, 0#4, none, none, none, s.acc, s.flags, s.sp, s.pc⟩
  | .halted => ⟨1#2, 0#4, none, none, none, s.acc, s.flags, s.sp, s.pc⟩
  | .faulted k pc raw => ⟨2#2, k.code, some pc, some (raw.getD 0#32), some raw.isSome, s.acc, s.flags, s.sp, s.pc⟩

/-! ### The memory port -/

/-- One transaction on the memory port (R11): `mem_addr`, `mem_we`, and `mem_rdata` or `mem_wdata`. -/
structure Access where
  addr : Addr
  we : Bool
  data : Word
  deriving DecidableEq, Repr

/-- The read of the word at `a`. -/
def readAccess (m : Memory) (a : Addr) : Access := { addr := a, we := false, data := m.readWord a }

/-- What a transaction does to the image. -/
def applyAccess (m : Memory) (t : Access) : Memory := if t.we then m.writeWord t.addr t.data else m

/-- The data access of an instruction (R36, and the order of R63): one read for LR, AD, SU, JP and, with
`EXT_CONTROL = true`, CR and a taken JB; one write for SR; none for HALT or where the step ends before it. Whether a
not-taken JB reads is not visible (R25); the pseudocode of R63 reads nothing. -/
def dataAccess (s : State) : Instr → Option Access
  | .lr x y => (translateOperands x y).map (readAccess s.mem)
  | .sr x y => (translateOperands x y).map fun ea => { addr := ea, we := true, data := s.acc }
  | .ad x y => (translateOperands x y).map (readAccess s.mem)
  | .su x y => (translateOperands x y).map (readAccess s.mem)
  | .cr x y => if s.config.extControl then (translateOperands x y).map (readAccess s.mem) else none
  | .jp x y => (translateOperands x y).map (readAccess s.mem)
  | .jb x y => if s.config.extControl && flagB s.flags then (translateOperands x y).map (readAccess s.mem) else none
  | .halt => none

/-- The transactions of the step from `s`, in order: the fetch, then at most one data access (R45). -/
def busTrace (s : State) : List Access :=
  match fetch s with
  | .error _ => []
  | .ok w =>
    readAccess s.mem (fetchAddr s.pc) ::
      match decode w with
      | .error _ => []
      | .ok i => (dataAccess s i).toList

end Sys2Proof.Machine
end

