-- ==== Sys2Proof/Safety.lean ====
section
/-! DEFINITION. What counts as a sound state and a safe step, in the terms the statements use. -/

namespace Sys2Proof.Machine

/-- The invariant of the machine: the image is in canonical form (the model's own), bits 7:3 of `flags` are 0 and with
`EXT_CONTROL = false` all of `flags` is (R19, R20), and `sp` is 0 (R22). -/
abbrev State.Inv (s : State) : Prop :=
  s.mem.wf = true ∧ s.flags.extractLsb' 3 5 = 0#5 ∧ (s.config.extControl = false → s.flags = 0#8) ∧ s.sp = 0#8

/-- The states the host can reach: a reset from some image, then steps (R97). -/
inductive Reachable : State → Prop where
  | reset (c : Config) (image : Image) : Reachable (State.construct c image)
  | step (s t : State) (h : Reachable s) (hs : step s = .next t) : Reachable t

/-- The step from `s` neither faults nor is refused (R10). -/
def SafeStep (s : State) : Prop := ∃ t, step s = .next t

end Sys2Proof.Machine
end

