-- ==== Sys2Proof/Certificates/Slice0/Obligations.lean ====
section
/-! DEFINITION. The statements for the provers. The words of the spec that several statements share come first, written
with numbers so that they do not repeat the model's own definitions. In a next state, `status` is `Continued` or
`Halted`, the outcome of R10 that the step returned (log entry 8). -/

namespace Sys2Proof.Said

open Sys2Proof Sys2Proof.Machine

/-- The byte offset an operand pair names: `(x * 16 + y) * 4` (R39). -/
def offset (x y : Byte) : Nat := (x.toNat * 16 + y.toNat) * 4

/-- Both operand bytes lie in `[0, 15]` (R40). -/
abbrev InRange (x y : Byte) : Prop := x.toNat ≤ 15 ∧ y.toNat ≤ 15

/-- `MemRead(a, 4) = {M[a], M[a+1], M[a+2], M[a+3]}`, `M[a]` the most significant byte (R9, R32). -/
def wordAt (m : Memory) (a : Nat) : Word :=
  m.readByte a ++ m.readByte (a + 1) ++ m.readByte (a + 2) ++ m.readByte (a + 3)

/-- The word of the slot `pc` names: at byte `512 + 4 * pc` (R14, R42). -/
def slotWord (s : State) : Word := wordAt s.mem (512 + 4 * s.pc.toNat)

/-- `MemWrite(a, 4, v)`: `v[31:24]`, `v[23:16]`, `v[15:8]` and `v[7:0]` stored from address `a` up (R9, R73). -/
def storeAt (m : Memory) (a : Nat) (v : Word) : Memory :=
  (((m.writeByte a (v.extractLsb' 24 8)).writeByte (a + 1) (v.extractLsb' 16 8)).writeByte (a + 2)
    (v.extractLsb' 8 8)).writeByte (a + 3) (v.extractLsb' 0 8)

/-- The operation a word names, by match and mask (R53). -/
def opOf (w : Word) : Option Mnemonic :=
  if w &&& 0xFFFF0000#32 = 0x4C520000#32 then some .LR
  else if w &&& 0xFFFF0000#32 = 0x53520000#32 then some .SR
  else if w &&& 0xFFFF0000#32 = 0x41440000#32 then some .AD
  else if w &&& 0xFFFF0000#32 = 0x53550000#32 then some .SU
  else if w &&& 0xFFFF0000#32 = 0x43520000#32 then some .CR
  else if w &&& 0xFFFF0000#32 = 0x4A500000#32 then some .JP
  else if w &&& 0xFFFF0000#32 = 0x4A420000#32 then some .JB
  else if w &&& 0xFFFFFFFF#32 = 0x48414C54#32 then some .HALT
  else none

/-- The flags CR writes: Z in bit 0, B in bit 1, S in bit 2, the rest 0 (R20, R77). -/
def compareFlags (acc w : Word) : Byte :=
  BitVec.ofNat 8 ((if acc = w then 1 else 0) + (if acc.toNat < w.toNat then 2 else 0) +
    (if 2 ^ 31 ≤ (acc.toNat + (2 ^ 32 - w.toNat)) % 2 ^ 32 then 4 else 0))

/-- `flags[1] = 1`: the borrow flag B is set (R20, R21). -/
def borrowSet (f : Byte) : Bool := f.toNat / 2 % 2 == 1

/-- The step goes on to the next slot (R16): `pc + 1`, outcome `Continued`. -/
def sequential (s : State) : State := { s with pc := s.pc + 1#16, status := .continued }

/-- JP, and a taken JB, with operand word `w` (R79, R80). -/
def jumpOrOverflow (s : State) (instr w : Word) : Host.Outcome State Fault Refusal :=
  if 0xFFFF < w.toNat then .fault (.programCounterOverflow s.pc instr)
  else .next { s with pc := BitVec.ofNat 16 w.toNat, status := .continued }

/-- `advance()` of R63, line by line. -/
def pseudoAdvance (s : State) : Host.Outcome State Fault Refusal :=
  if 96 ≤ s.pc.toNat then .fault (.programCounterOutOfBounds s.pc)
  else
    let instr := slotWord s
    match opOf instr with
    | none => .fault (.unrecognizedInstruction s.pc instr)
    | some op =>
      if (op = .CR ∨ op = .JB ∨ op = .HALT) ∧ s.config.extControl = false then
        .fault (.unimplementedInstruction s.pc instr)
      else if op = .HALT then .next { s with status := .halted }
      else
        let x : Byte := instr.extractLsb' 8 8
        let y : Byte := instr.extractLsb' 0 8
        if 15 < x.toNat ∨ 15 < y.toNat then .fault (.operandOutOfRange s.pc instr)
        else
          let ea := 64 * x.toNat + 4 * y.toNat
          let w := wordAt s.mem ea
          match op with
          | .LR => .next { sequential s with acc := w }
          | .SR => .next { sequential s with mem := storeAt s.mem ea s.acc }
          | .AD => .next { sequential s with acc := BitVec.ofNat 32 ((s.acc.toNat + w.toNat) % 2 ^ 32) }
          | .SU => .next { sequential s with acc := BitVec.ofNat 32 ((s.acc.toNat + (2 ^ 32 - w.toNat)) % 2 ^ 32) }
          | .CR => .next { sequential s with flags := compareFlags s.acc w }
          | .JP => jumpOrOverflow s instr w
          | .JB => if borrowSet s.flags then jumpOrOverflow s instr w else .next (sequential s)
          | .HALT => .next { s with status := .halted }

/-- The kind of fault an outcome reports, if it is a fault (R83). -/
def reported : Host.Outcome State Fault Refusal → Option FaultKind
  | .next _ => none
  | .fault r => some r.kind
  | .refused _ => none

/-- The outcome with `f` applied to its next state, if it has one. -/
def mapNext (f : State → State) : Host.Outcome State Fault Refusal → Host.Outcome State Fault Refusal
  | .next t => .next (f t)
  | .fault r => .fault r
  | .refused r => .refused r

end Sys2Proof.Said

open Sys2Proof Sys2Proof.Machine Sys2Proof.Said

/-! ### Encoding -/

/-- Every instruction, with every value of every operand byte, decodes from its own word (from R53, R54 and R60). -/
def Obligations.DecodeAfterEncodeIsIdentity : Prop :=
  ∀ i : Instr, decode (encode i) = .ok i

/-- A word that decodes is the encoding of what it decodes to: no two words are one instruction (from R58). -/
def Obligations.DecodedWordReencodesToItself : Prop :=
  ∀ (w : Word) (i : Instr), decode w = .ok i → encode i = w

/-- R53: a word decodes to a mnemonic exactly when it matches that mnemonic's row, `(instr & mask) = match`, and it
matches at most one row. -/
def Obligations.DecoderFollowsOpcodeMap : Prop :=
  ∀ w : Word,
    (∀ m : Mnemonic, (∃ i, decode w = .ok i ∧ i.mnemonic = m) ↔
      ∃ r ∈ ([(.LR, 0x4C520000#32, 0xFFFF0000#32), (.SR, 0x53520000#32, 0xFFFF0000#32),
          (.AD, 0x41440000#32, 0xFFFF0000#32), (.SU, 0x53550000#32, 0xFFFF0000#32),
          (.CR, 0x43520000#32, 0xFFFF0000#32), (.JP, 0x4A500000#32, 0xFFFF0000#32),
          (.JB, 0x4A420000#32, 0xFFFF0000#32), (.HALT, 0x48414C54#32, 0xFFFFFFFF#32)] : List (Mnemonic × Word × Word)),
        r.1 = m ∧ w &&& r.2.2 = r.2.1) ∧
    (∀ r ∈ opcodeMap, ∀ r' ∈ opcodeMap, r.fits w = true → r'.fits w = true → r = r')

/-- Words written out from the table of R53 decode to the instructions they stand for. -/
def Obligations.TableWordsDecodeAsWritten : Prop :=
  decode 0x4C520001#32 = .ok (.lr 0#8 1#8) ∧ decode 0x53520805#32 = .ok (.sr 8#8 5#8) ∧
  decode 0x41440001#32 = .ok (.ad 0#8 1#8) ∧ decode 0x53550003#32 = .ok (.su 0#8 3#8) ∧
  decode 0x4352C8C8#32 = .ok (.cr 200#8 200#8) ∧ decode 0x4A501000#32 = .ok (.jp 16#8 0#8) ∧
  decode 0x4A420010#32 = .ok (.jb 0#8 16#8) ∧ decode 0x48414C54#32 = .ok .halt ∧
  decode 0x48414C55#32 = .error (.illegal 0x48414C55#32) ∧ decode 0x6C720001#32 = .error (.illegal 0x6C720001#32)

/-- R54: the operand bytes are `instr[15:8]` and `instr[7:0]`, unchanged, and the decoder accepts every value of
both. -/
def Obligations.OperandBytesPassUnchanged : Prop :=
  (∀ (w : Word) (i : Instr) (x y : Byte), decode w = .ok i → i.operands = some (x, y) →
    x = w.extractLsb' 8 8 ∧ y = w.extractLsb' 0 8) ∧
  (∀ x y : Byte, ∀ c ∈ ([(0x4C52#16, Instr.lr), (0x5352#16, .sr), (0x4144#16, .ad), (0x5355#16, .su), (0x4352#16, .cr),
      (0x4A50#16, .jp), (0x4A42#16, .jb)] : List (BitVec 16 × (Byte → Byte → Instr))),
    decode (c.1 ++ x ++ y) = .ok (c.2 x y))

/-- R56: a word that matches no row raises `UnrecognizedInstruction` with the raw word and `pc`, a word beginning
'H' 'A' whose other bytes are not 'L' 'T' and the all-zero word among them. -/
def Obligations.UnmatchedWordRaisesUnrecognized : Prop :=
  (∀ s : State, s.pc.toNat < 96 → (∀ r ∈ opcodeMap, r.fits (slotWord s) = false) →
    decode (slotWord s) = .error (.illegal (slotWord s)) ∧
    step s = .fault (.unrecognizedInstruction s.pc (slotWord s))) ∧
  (∀ w : Word, w.extractLsb' 16 16 = 0x4841#16 → w ≠ 0x48414C54#32 → ∀ r ∈ opcodeMap, r.fits w = false) ∧
  (∀ r ∈ opcodeMap, r.fits 0#32 = false)

/-- The assembly text of an instruction assembles to its word, for every instruction and operand (from R60). -/
def Obligations.RenderedInstructionAssembles : Prop :=
  ∀ i : Instr, assemble (renderInstr i) = some (encode i)

/-! ### The step -/

/-- A step runs the decoded instruction (from R62 and R63): when the slot's word decodes to `i`, the step is `exec i`;
nothing is added around it. -/
def Obligations.StepRunsDecodedInstruction : Prop :=
  ∀ (s : State) (i : Instr), s.pc.toNat < 96 → decode (slotWord s) = .ok i → step s = exec i s

/-- R42: the IFU faults with nothing read when `pc >= 96`, and otherwise reads the word at `512 + 4 * pc`, an address
in `[512, 892]`. -/
def Obligations.FetchReadsSlotOrFaults : Prop :=
  ∀ s : State,
    (96 ≤ s.pc.toNat → fetch s = .error (.programCounterOutOfBounds s.pc) ∧
      step s = .fault (.programCounterOutOfBounds s.pc) ∧ Fault.raw (.programCounterOutOfBounds s.pc) = none ∧
      busTrace s = []) ∧
    (s.pc.toNat < 96 → fetch s = .ok (slotWord s) ∧ (fetchAddr s.pc).toNat = 512 + 4 * s.pc.toNat ∧
      512 ≤ (fetchAddr s.pc).toNat ∧ (fetchAddr s.pc).toNat ≤ 892)

/-- R63: the step is the pseudocode `advance()`, from every state. -/
def Obligations.StepRefinesAdvancePseudocode : Prop :=
  ∀ s : State, step s = pseudoAdvance s

/-- R86: the step reports the first fault that applies in the order fetch, unrecognized, unimplemented, operand range,
jump narrowing; and where none applies it gives a next state. -/
def Obligations.FirstApplicableFaultIsReported : Prop :=
  ∀ s : State,
    let instr := slotWord s
    let x := (instr.extractLsb' 8 8).toNat
    let y := (instr.extractLsb' 0 8).toNat
    let first :=
      if 96 ≤ s.pc.toNat then some FaultKind.programCounterOutOfBounds
      else if opOf instr = none then some .unrecognizedInstruction
      else if (opOf instr = some .CR ∨ opOf instr = some .JB ∨ opOf instr = some .HALT) ∧ s.config.extControl = false then
        some .unimplementedInstruction
      else if opOf instr ≠ some .HALT ∧ (15 < x ∨ 15 < y) then some .operandOutOfRange
      else if (opOf instr = some .JP ∨ opOf instr = some .JB ∧ borrowSet s.flags) ∧
          0xFFFF < (wordAt s.mem (64 * x + 4 * y)).toNat then some .programCounterOverflow
      else none
    reported (step s) = first ∧ (first = none → ∃ t, step s = .next t)

/-- No step is refused: from every state a step gives a next state or a fault (from R10; the kinds a step reports are
those of R83, never `MalformedProgramImage`, R84). -/
def Obligations.EveryStepAnswersWithoutRefusal : Prop :=
  ∀ s : State, (∃ t, step s = .next t) ∨ (∃ r, step s = .fault r ∧ r.kind ≠ .malformedProgramImage ∧ r.slot = s.pc)

/-- R68, R69 and R70: a faulted advance leaves the state as it was and the next one faults the same way; a halted one
changes nothing but the reported status and the next one halts again. -/
def Obligations.FaultedAndHaltedAdvancesRepeat : Prop :=
  (∀ (s t : State) (k : FaultKind) (pc : Slot) (raw : Option Word), advance s = some (t, .faulted k pc raw) →
    t = s ∧ pc = s.pc ∧ advance t = some (s, .faulted k pc raw)) ∧
  (∀ s t : State, advance s = some (t, .halted) →
    t = { s with status := .halted } ∧ advance t = some (t, .halted))

/-- R71: outcome and next state do not depend on `sp`, which is carried along, nor on the status of an earlier
step. -/
def Obligations.StepIgnoresStackPointerAndStatus : Prop :=
  ∀ (s : State) (v : Byte) (st : StepStatus),
    step { s with sp := v, status := st } = mapNext (fun t => { t with sp := v }) (step s)

/-- LR, SR, AD, SU and JP behave identically under both values of `EXT_CONTROL` (from R7). -/
def Obligations.BasicInstructionsIgnoreExtControl : Prop :=
  ∀ (i : Instr) (c : Config) (s : State), i.mnemonic.extControlled = false →
    exec i { s with config := c } = mapNext (fun t => { t with config := c }) (exec i s)

/-! ### The instructions -/

/-- R72, LR: encoding, result, and faults; every other field of the state is as before. -/
def Obligations.LoadRegisterReadsAddressedWord : Prop :=
  ∀ (x y : Byte) (s : State),
    encodeBytes (.lr x y) = [0x4C#8, 0x52#8, x, y] ∧
    (InRange x y → exec (.lr x y) s = .next { sequential s with acc := wordAt s.mem (offset x y) }) ∧
    (¬ InRange x y → exec (.lr x y) s = .fault (.operandOutOfRange s.pc (encode (.lr x y)))) ∧
    (96 ≤ s.pc.toNat → step s = .fault (.programCounterOutOfBounds s.pc))

/-- R73, SR: encoding, the four bytes stored big-endian and no other byte touched, and faults; every other field of the
state is as before. -/
def Obligations.StoreRegisterWritesAddressedWord : Prop :=
  ∀ (x y : Byte) (s : State),
    encodeBytes (.sr x y) = [0x53#8, 0x52#8, x, y] ∧
    (InRange x y → ∃ m : Memory, exec (.sr x y) s = .next { sequential s with mem := m } ∧
      (m.readByte (offset x y)).toNat = s.acc.toNat / 2 ^ 24 ∧
      (m.readByte (offset x y + 1)).toNat = s.acc.toNat / 2 ^ 16 % 256 ∧
      (m.readByte (offset x y + 2)).toNat = s.acc.toNat / 2 ^ 8 % 256 ∧
      (m.readByte (offset x y + 3)).toNat = s.acc.toNat % 256 ∧
      ∀ a, (a < offset x y ∨ offset x y + 4 ≤ a) → m.readByte a = s.mem.readByte a) ∧
    (¬ InRange x y → exec (.sr x y) s = .fault (.operandOutOfRange s.pc (encode (.sr x y)))) ∧
    (96 ≤ s.pc.toNat → step s = .fault (.programCounterOutOfBounds s.pc))

/-- R75 (and R74's law of addition), AD: encoding, result modulo 2^32 with no overflow fault and no flag written, and
faults; every other field of the state is as before. -/
def Obligations.AddWrapsAndWritesNoFlag : Prop :=
  ∀ (x y : Byte) (s : State),
    encodeBytes (.ad x y) = [0x41#8, 0x44#8, x, y] ∧
    (InRange x y → exec (.ad x y) s = .next { sequential s with
      acc := BitVec.ofNat 32 ((s.acc.toNat + (wordAt s.mem (offset x y)).toNat) % 2 ^ 32) }) ∧
    (¬ InRange x y → exec (.ad x y) s = .fault (.operandOutOfRange s.pc (encode (.ad x y)))) ∧
    (96 ≤ s.pc.toNat → step s = .fault (.programCounterOutOfBounds s.pc))

/-- R76 (and R74's law of subtraction), SU: encoding, result modulo 2^32 with no underflow fault and no flag written,
and faults; every other field of the state is as before. -/
def Obligations.SubtractWrapsAndWritesNoFlag : Prop :=
  ∀ (x y : Byte) (s : State),
    encodeBytes (.su x y) = [0x53#8, 0x55#8, x, y] ∧
    (InRange x y → exec (.su x y) s = .next { sequential s with
      acc := BitVec.ofNat 32 ((s.acc.toNat + (2 ^ 32 - (wordAt s.mem (offset x y)).toNat)) % 2 ^ 32) }) ∧
    (¬ InRange x y → exec (.su x y) s = .fault (.operandOutOfRange s.pc (encode (.su x y)))) ∧
    (96 ≤ s.pc.toNat → step s = .fault (.programCounterOutOfBounds s.pc))

/-- R77, CR: encoding; with `EXT_CONTROL = true` all eight bits of `flags` written, `acc` kept, and the operand range
fault; with `false` the unimplemented fault, whatever the operands. Every other field of the state is as before. -/
def Obligations.CompareWritesFlagsFromDifference : Prop :=
  ∀ (x y : Byte) (s : State),
    encodeBytes (.cr x y) = [0x43#8, 0x52#8, x, y] ∧
    (s.config.extControl = true → InRange x y →
      exec (.cr x y) s = .next { sequential s with flags := compareFlags s.acc (wordAt s.mem (offset x y)) }) ∧
    (s.config.extControl = true → ¬ InRange x y →
      exec (.cr x y) s = .fault (.operandOutOfRange s.pc (encode (.cr x y)))) ∧
    (s.config.extControl = false → exec (.cr x y) s = .fault (.unimplementedInstruction s.pc (encode (.cr x y)))) ∧
    (96 ≤ s.pc.toNat → step s = .fault (.programCounterOutOfBounds s.pc))

/-- R79, JP: encoding; the target is the whole operand word when it fits 16 bits and a fault when it does not; and the
operand range fault. Every other field of the state is as before. -/
def Obligations.JumpGoesToOperandWord : Prop :=
  ∀ (x y : Byte) (s : State),
    let w := wordAt s.mem (offset x y)
    encodeBytes (.jp x y) = [0x4A#8, 0x50#8, x, y] ∧
    (InRange x y → w.toNat ≤ 0xFFFF →
      exec (.jp x y) s = .next { s with pc := BitVec.ofNat 16 w.toNat, status := .continued }) ∧
    (InRange x y → 0xFFFF < w.toNat →
      exec (.jp x y) s = .fault (.programCounterOverflow s.pc (encode (.jp x y)))) ∧
    (¬ InRange x y → exec (.jp x y) s = .fault (.operandOutOfRange s.pc (encode (.jp x y)))) ∧
    (96 ≤ s.pc.toNat → step s = .fault (.programCounterOutOfBounds s.pc))

/-- R80, JB: encoding; with `EXT_CONTROL = true` a jump as JP's when `flags[1] = 1`, else the next slot whatever the
target word, with the operand range fault either way; with `false` the unimplemented fault. Every other field of the
state is as before. -/
def Obligations.JumpIfBelowTestsBorrow : Prop :=
  ∀ (x y : Byte) (s : State),
    let w := wordAt s.mem (offset x y)
    encodeBytes (.jb x y) = [0x4A#8, 0x42#8, x, y] ∧
    (s.config.extControl = true → InRange x y → borrowSet s.flags → w.toNat ≤ 0xFFFF →
      exec (.jb x y) s = .next { s with pc := BitVec.ofNat 16 w.toNat, status := .continued }) ∧
    (s.config.extControl = true → InRange x y → borrowSet s.flags → 0xFFFF < w.toNat →
      exec (.jb x y) s = .fault (.programCounterOverflow s.pc (encode (.jb x y)))) ∧
    (s.config.extControl = true → InRange x y → ¬ borrowSet s.flags → exec (.jb x y) s = .next (sequential s)) ∧
    (s.config.extControl = true → ¬ InRange x y →
      exec (.jb x y) s = .fault (.operandOutOfRange s.pc (encode (.jb x y)))) ∧
    (s.config.extControl = false → exec (.jb x y) s = .fault (.unimplementedInstruction s.pc (encode (.jb x y)))) ∧
    (96 ≤ s.pc.toNat → step s = .fault (.programCounterOutOfBounds s.pc))

/-- R81, HALT: encoding; with `EXT_CONTROL = true` the outcome `Halted` and nothing changed, `pc` included, and again
on a further advance; with `false` the unimplemented fault. -/
def Obligations.HaltChangesNothing : Prop :=
  ∀ s : State,
    encode .halt = 0x48414C54#32 ∧
    (s.config.extControl = true → exec .halt s = .next { s with status := .halted }) ∧
    (s.config.extControl = true → s.pc.toNat < 96 → slotWord s = 0x48414C54#32 →
      advance s = some ({ s with status := .halted }, .halted) ∧
      advance { s with status := .halted } = some ({ s with status := .halted }, .halted)) ∧
    (s.config.extControl = false → exec .halt s = .fault (.unimplementedInstruction s.pc 0x48414C54#32)) ∧
    (96 ≤ s.pc.toNat → step s = .fault (.programCounterOutOfBounds s.pc))

/-- R57: with `EXT_CONTROL = false` a word of the CR, JB or HALT row decodes to that mnemonic and the step raises
`UnimplementedInstruction` with that word, whatever its operand bytes. Conversely, a step that raises it has
`EXT_CONTROL = false` and has fetched such a word, and the fault carries the step's `pc` and that word. -/
def Obligations.ControlRowsUnimplementedByDefault : Prop :=
  (∀ (s : State) (m : Mnemonic), s.config.extControl = false → s.pc.toNat < 96 → opOf (slotWord s) = some m →
    m.extControlled = true → (∃ i, decode (slotWord s) = .ok i ∧ i.mnemonic = m) ∧
      step s = .fault (.unimplementedInstruction s.pc (slotWord s))) ∧
  (∀ (s : State) (pc : Slot) (raw : Word), step s = .fault (.unimplementedInstruction pc raw) →
    s.config.extControl = false ∧ s.pc.toNat < 96 ∧ pc = s.pc ∧ raw = slotWord s ∧
      ∃ m, opOf raw = some m ∧ m.extControlled = true)

/-! ### Frames -/

/-- What an instruction leaves unchanged in the registers when it gives a next state (R25, the W entries): only LR, AD
and SU may write `acc`, only CR `flags`, none `sp`; the configuration never changes. -/
def Obligations.RegistersWrittenOnlyByTheirInstructions : Prop :=
  ∀ (i : Instr) (s t : State), exec i s = .next t →
    (i.mnemonic ≠ .LR → i.mnemonic ≠ .AD → i.mnemonic ≠ .SU → t.acc = s.acc) ∧
    (i.mnemonic ≠ .CR → t.flags = s.flags) ∧ t.sp = s.sp ∧ t.config = s.config

/-- LR, AD, SU, CR, JP, JB and HALT store nothing: every byte of the image reads as before (from R13 and R25). -/
def Obligations.NonStoringInstructionsKeepMemory : Prop :=
  ∀ (i : Instr) (s t : State), exec i s = .next t → i.mnemonic ≠ .SR →
    t.mem = s.mem ∧ ∀ a, t.mem.readByte a = s.mem.readByte a

/-- SR stores to the four bytes at the address its operand pair translates to, and every byte outside them reads as
before (from R13 and R73). -/
def Obligations.StoreChangesOnlyAddressedWord : Prop :=
  ∀ (x y : Byte) (s t : State) (ea : Addr), translateOperands x y = some ea → exec (.sr x y) s = .next t →
    ∀ a, (a < ea.toNat ∨ ea.toNat + 4 ≤ a) → t.mem.readByte a = s.mem.readByte a

/-- R16: what each instruction does to `pc` when the step does not fault, and that a faulted step leaves it. -/
def Obligations.ProgramCounterUpdates : Prop :=
  (∀ (x y : Byte) (s t : State), ∀ i ∈ [Instr.lr x y, .sr x y, .ad x y, .su x y, .cr x y], exec i s = .next t →
    t.pc = s.pc + 1#16) ∧
  (∀ (x y : Byte) (s t : State), exec (.jp x y) s = .next t → t.pc.toNat = (wordAt s.mem (offset x y)).toNat) ∧
  (∀ (x y : Byte) (s t : State), exec (.jb x y) s = .next t → borrowSet s.flags →
    t.pc.toNat = (wordAt s.mem (offset x y)).toNat) ∧
  (∀ (x y : Byte) (s t : State), exec (.jb x y) s = .next t → ¬ borrowSet s.flags → t.pc = s.pc + 1#16) ∧
  (∀ s t : State, exec .halt s = .next t → t.pc = s.pc) ∧
  (∀ (s t : State) (k : FaultKind) (pc : Slot) (raw : Option Word), advance s = some (t, .faulted k pc raw) → t.pc = s.pc)

/-- R17: a sequential step never wraps `pc`; it goes from a slot at most 95 to the next, at most 96. -/
def Obligations.SequentialStepsStayInSlotRange : Prop :=
  ∀ (s t : State) (i : Instr), step s = .next t → decode (slotWord s) = .ok i →
    i.mnemonic ≠ .JP → i.mnemonic ≠ .HALT → (i.mnemonic = .JB → ¬ borrowSet s.flags) →
    s.pc.toNat ≤ 95 ∧ t.pc.toNat = s.pc.toNat + 1 ∧ t.pc.toNat ≤ 96

/-- A step changes at most one of the accumulator, the image and the flags (from R67). -/
def Obligations.StepWritesOneCategory : Prop :=
  ∀ s t : State, step s = .next t →
    (t.acc = s.acc ∧ t.mem = s.mem) ∨ (t.acc = s.acc ∧ t.flags = s.flags) ∨ (t.mem = s.mem ∧ t.flags = s.flags)

/-- Only SR, AD, SU and CR read `acc`, and only JB reads `flags` (R25, the R entries; R18 and R21): the outcome of the
others does not depend on them. LR discards the old `acc`, and CR every earlier flag. -/
def Obligations.InstructionsReadOnlyTheirRegisters : Prop :=
  ∀ (x y : Byte) (s : State) (v : Word) (f : Byte),
    exec (.lr x y) { s with acc := v } = exec (.lr x y) s ∧
    (∀ i ∈ [Instr.jp x y, .jb x y, .halt],
      exec i { s with acc := v } = mapNext (fun t => { t with acc := v }) (exec i s)) ∧
    (∀ i ∈ [Instr.lr x y, .sr x y, .ad x y, .su x y, .jp x y, .halt],
      exec i { s with flags := f } = mapNext (fun t => { t with flags := f }) (exec i s)) ∧
    exec (.cr x y) { s with flags := f } = exec (.cr x y) s

/-! ### Instructions together -/

/-- The document's property P1 (`95_test_vectors.md` S1): after SR x y, an LR x y in any state with that image gives
exactly the stored value. -/
def Obligations.StoreThenLoadReturnsValue : Prop :=
  ∀ (x y : Byte) (s : State), InRange x y → ∃ t, exec (.sr x y) s = .next t ∧
    ∀ u : State, u.mem = t.mem → ∃ r, exec (.lr x y) u = .next r ∧ r.acc = s.acc

/-- After CR x y, a JB whose target fits is taken exactly when the accumulator was below the compared word as unsigned
numbers (from R20, R21, R77 and R80). -/
def Obligations.CompareThenJumpBelow : Prop :=
  ∀ (x y x' y' : Byte) (s t : State), exec (.cr x y) s = .next t → InRange x' y' →
    (wordAt s.mem (offset x' y')).toNat ≤ 0xFFFF →
    exec (.jb x' y') t = .next { t with
      pc := if s.acc.toNat < (wordAt s.mem (offset x y)).toNat then BitVec.ofNat 16 (wordAt s.mem (offset x' y')).toNat
        else t.pc + 1#16 }

/-- SU of a word after AD of it restores the accumulator, whatever wrapped (from R74). -/
def Obligations.AddThenSubtractRestores : Prop :=
  ∀ (x y : Byte) (s t : State), exec (.ad x y) s = .next t → ∃ u, exec (.su x y) t = .next u ∧ u.acc = s.acc ∧
    u.mem = s.mem ∧ u.pc = s.pc + 2#16

/-- R43 and R64: a fetch reads the image as it stands; an SR to the word of a code slot is what the next fetch of that
slot returns; and an SR that overwrites its own slot still runs as the SR it was fetched as. -/
def Obligations.CodeStoreSeenByNextFetch : Prop :=
  (∀ s : State, s.pc.toNat < 96 → fetch s = .ok (slotWord s)) ∧
  (∀ (k : Slot) (s t : State), k.toNat < 96 →
    exec (.sr (slotOperand k.toNat).1 (slotOperand k.toNat).2) s = .next t →
    ∀ u : State, u.pc = k → u.mem = t.mem → fetch u = .ok s.acc) ∧
  (∀ s : State, s.pc.toNat < 96 →
    decode (slotWord s) = .ok (.sr (slotOperand s.pc.toNat).1 (slotOperand s.pc.toNat).2) →
    ∃ t, step s = .next t ∧ t.pc = s.pc + 1#16 ∧ t.acc = s.acc ∧ fetch { t with pc := s.pc } = .ok s.acc)

/-- R15: JP and a taken JB accept a target in `[96, 65535]`; the next step faults at its fetch. -/
def Obligations.JumpPastSlotsFaultsAtNextFetch : Prop :=
  ∀ (x y : Byte) (s : State), InRange x y → 96 ≤ (wordAt s.mem (offset x y)).toNat →
    (wordAt s.mem (offset x y)).toNat ≤ 65535 →
    ∀ i ∈ [Instr.jp x y, .jb x y], (i = .jb x y → s.config.extControl = true ∧ borrowSet s.flags) →
    ∃ t, exec i s = .next t ∧ t.pc.toNat = (wordAt s.mem (offset x y)).toNat ∧
      step t = .fault (.programCounterOutOfBounds t.pc)

/-- A JP to its own slot never stops (from R98): after any number of steps the machine still runs, with registers and
image as they were. -/
def Obligations.JumpToOwnSlotNeverStops : Prop :=
  ∀ (x y : Byte) (s : State), s.pc.toNat < 96 → decode (slotWord s) = .ok (.jp x y) → InRange x y →
    (wordAt s.mem (offset x y)).toNat = s.pc.toNat →
    ∀ n, ∃ st, Host.Core.run Sys2Proof.core n s = .next { s with status := st }

/-! ### Address translation and the memory port -/

/-- R39 and R40: the MAT gives `(x * 16 + y) * 4`, in `[0, 1020]`, when both bytes are at most 15, and otherwise the
fault. -/
def Obligations.TranslatorComputesWordOffset : Prop :=
  ∀ x y : Byte,
    (InRange x y → ∃ ea, translateOperands x y = some ea ∧ ea.toNat = (x.toNat * 16 + y.toNat) * 4 ∧
      ea.toNat = 64 * x.toNat + 4 * y.toNat ∧ ea.toNat ≤ 1020) ∧
    (15 < x.toNat ∨ 15 < y.toNat → translateOperands x y = none ∧
      ∀ (s : State) (i : Instr), i.operands = some (x, y) →
        (i.mnemonic.extControlled = true → s.config.extControl = true) →
        exec i s = .fault (.operandOutOfRange s.pc (encode i)))

/-- Each word of the image is named by exactly one operand pair (from R39, R41 and `92_eei_decisions.md` D6). -/
def Obligations.OperandPairsNameEachWordOnce : Prop :=
  (∀ (x y x' y' : Byte) (ea : Addr), translateOperands x y = some ea → translateOperands x' y' = some ea → x = x' ∧ y = y') ∧
  (∀ ea : Addr, ea.toNat % 4 = 0 → ∃ x y, translateOperands x y = some ea)

/-- R41: which region an operand pair reaches, by its block number, and which pair names the word of slot `k`. -/
def Obligations.OperandPairRegions : Prop :=
  (∀ (x y : Byte) (ea : Addr), translateOperands x y = some ea →
    regionOf ea.toNat = if x.toNat = 0 then Region.parameters else if x.toNat ≤ 7 then .data
      else if x.toNat ≤ 13 then .code else .reserved) ∧
  (∀ k : Slot, k.toNat ≤ 95 →
    (slotOperand k.toNat).1.toNat = 8 + k.toNat / 16 ∧ (slotOperand k.toNat).2.toNat = k.toNat % 16 ∧
    translateOperands (slotOperand k.toNat).1 (slotOperand k.toNat).2 = some (fetchAddr k))

/-- R35 and R44: every address a step issues is a multiple of 4 and its four bytes lie in the image, a fetch's in the
Code region. -/
def Obligations.AccessesAlignedAndInImage : Prop :=
  ∀ (s : State),
    (∀ a ∈ busTrace s, a.addr.toNat % 4 = 0 ∧ a.addr.toNat ≤ 1020 ∧ a.addr.toNat + 3 < 1024) ∧
    (∀ a, (busTrace s).head? = some a → 512 ≤ a.addr.toNat ∧ a.addr.toNat ≤ 892)

/-- R45 and R36: a step's memory traffic is the fetch read, then at most one data access, a write for SR only; LR, SR,
AD, SU, JP, CR and a taken JB make exactly one when they complete, HALT none. The data access is at the address its
operand pair names (R38, R39): a read returns the word there, and SR writes the accumulator. -/
def Obligations.BusCarriesFetchThenOneDataAccess : Prop :=
  ∀ (s : State) (i : Instr), s.pc.toNat < 96 → decode (slotWord s) = .ok i →
    ∃ rest : List Access,
      busTrace s = { addr := fetchAddr s.pc, we := false, data := slotWord s } :: rest ∧ rest.length ≤ 1 ∧
      (∀ a ∈ rest, (a.we = true ↔ i.mnemonic = .SR) ∧ ∃ x y, i.operands = some (x, y) ∧ InRange x y ∧
        a.addr.toNat = offset x y ∧ a.data = if i.mnemonic = .SR then s.acc else wordAt s.mem (offset x y)) ∧
      (i = .halt → rest = []) ∧
      (∀ t, step s = .next t → (i.mnemonic = .JB → borrowSet s.flags) → i ≠ .halt → rest.length = 1)

/-- The image after a step is the image before it with the port's writes applied (from R11, R13 and R67). -/
def Obligations.MemoryChangesOnlyByBusWrites : Prop :=
  ∀ s t : State, step s = .next t → t.mem = (busTrace s).foldl applyAccess s.mem

/-- Every word of the image, in whichever region, can be stored to and loaded from by some operand pair (from R30 and
R31). -/
def Obligations.EveryWordIsReadableAndWritable : Prop :=
  ∀ k : Nat, k < 256 → ∃ x y : Byte, ∀ s : State,
    (∃ t, exec (.sr x y) s = .next t ∧ wordAt t.mem (4 * k) = s.acc) ∧
    (∃ u, exec (.lr x y) s = .next u ∧ u.acc = wordAt s.mem (4 * k))

/-! ### Fault reports -/

/-- R87: the ports after a faulted advance carry status 2, the kind's code (the codes of R83), the step's `pc`, and the
fetched word where one was fetched, byte 0 of the instruction in `[31:24]`. -/
def Obligations.FaultPortsCarryReport : Prop :=
  ∀ (s : State) (r : Fault), step s = .fault r →
    ∃ res, advance s = some (s, res) ∧
      (outPorts s res).status = 2#2 ∧ (outPorts s res).faultPc = some s.pc ∧
      (outPorts s res).faultKind.toNat = (match r.kind with
        | .malformedProgramImage => 1 | .unrecognizedInstruction => 2 | .unimplementedInstruction => 3
        | .programCounterOutOfBounds => 4 | .programCounterOverflow => 5 | .operandOutOfRange => 6) ∧
      (outPorts s res).faultRawValid = some (decide (r.kind ≠ .programCounterOutOfBounds)) ∧
      (outPorts s res).faultRaw = some (if s.pc.toNat < 96 then slotWord s else 0#32) ∧
      (s.pc.toNat < 96 → byte0 (slotWord s) = s.mem.readByte (512 + 4 * s.pc.toNat))

/-- The ports that R11 gives a value after a step that did not fault: `status` is 1 after HALT and 0 after every other
instruction, and `fault_kind` is 0. After every advance, a faulted one too, the `dbg` ports show the registers as the
advance leaves them (R11, R97), and `status` is never 3. -/
def Obligations.PortsShowOutcomeAndRegisters : Prop :=
  (∀ s t : State, step s = .next t →
    ∃ res, advance s = some (t, res) ∧
      (outPorts t res).status = (if opOf (slotWord s) = some .HALT then 1#2 else 0#2) ∧
      (outPorts t res).faultKind = 0#4) ∧
  (∀ (s t : State) (res : StepResult), advance s = some (t, res) →
    (outPorts t res).dbgAcc = t.acc ∧ (outPorts t res).dbgFlags = t.flags ∧ (outPorts t res).dbgSp = t.sp ∧
    (outPorts t res).dbgPc = t.pc ∧ (outPorts t res).status ≠ 3#2)

/-! ### Reset and the host -/

/-- R27 and R94: every register is zero after reset and the entry point is slot 0, for any image and in the reset state
itself. -/
def Obligations.ResetRegistersAreZero : Prop :=
  (∀ (c : Config) (image : Image),
    (State.construct c image).pc = 0#16 ∧ (State.construct c image).acc = 0#32 ∧
    (State.construct c image).flags = 0#8 ∧ (State.construct c image).sp = 0#8 ∧
    ((fetchAddr (State.construct c image).pc).toNat = 512)) ∧
  State.reset.pc = 0#16 ∧ State.reset.acc = 0#32 ∧ State.reset.flags = 0#8 ∧ State.reset.sp = 0#8

/-- R93: reset takes the image the host supplies, byte for byte, whatever ran before; only the machine's own
configuration stays. -/
def Obligations.ResetTakesSuppliedImage : Prop :=
  ∀ (s : State) (image : Image), ∃ t, respond s (.reset image) = some (t, none) ∧
    t.pc = 0#16 ∧ t.acc = 0#32 ∧ t.flags = 0#8 ∧ t.sp = 0#8 ∧ t.config = s.config ∧
    (∀ a, a < 1024 → image.bytes[a]? = some (t.mem.readByte a)) ∧ t.imageBytesOf = image.bytes

/-- R95 (and R84): the loader returns a sequence of 1024 bytes as it is and refuses every other length, and then no
state is constructed. -/
def Obligations.LoaderAcceptsOnlyFullImages : Prop :=
  ∀ b : List Byte,
    (b.length = 1024 → ∃ image, loadImage b = .ok image ∧ image.bytes = b ∧
      ∀ c, State.boot c b = .ok (State.construct c image)) ∧
    (b.length ≠ 1024 → loadImage b = .error .malformedProgramImage ∧
      ∀ c, State.boot c b = .error .malformedProgramImage)

/-- The image the host reads back rebuilds the memory it was read from, when that is in canonical form (from R93 and
R97: a reset may take the image as a run left it). -/
def Obligations.ImageReadBackRebuildsMemory : Prop :=
  ∀ s : State, s.mem.wf = true → s.imageBytesOf.length = 1024 ∧ Memory.ofBytes 0 s.imageBytesOf = s.mem

/-- The instruction placed for the next fetch is the one the next step runs, and nothing but the slot's word and a `pc`
out of range is touched (the model's own, log entry 10; it rests on R33 and R42). -/
def Obligations.PlacedWordIsRunNext : Prop :=
  ∀ (s : State) (w : Nat) (i : Instr), w < 2 ^ 32 → decodeTableWord 32 w = some i →
    step (s.withFetchWord 32 w) = exec i (s.withFetchWord 32 w) ∧
    (s.pc.toNat < 96 → (s.withFetchWord 32 w).pc = s.pc) ∧
    ∀ a, (a < (fetchAddr (s.withFetchWord 32 w).pc).toNat ∨ (fetchAddr (s.withFetchWord 32 w).pc).toNat + 4 ≤ a) →
      (s.withFetchWord 32 w).mem.readByte a = s.mem.readByte a

/-! ### Invariants -/

/-- Every step keeps the invariant: the image in canonical form, `flags[7:3] = 0` and all of `flags` 0 with
`EXT_CONTROL = false`, `sp = 0` (from R19, R20 and R22; the canonical form is the model's own, log entry 6). -/
def Obligations.StepKeepsInvariant : Prop :=
  ∀ s t : State, s.Inv → step s = .next t → t.Inv

/-- The reset state, and a reset from any image, meet the invariant (from R27; the canonical form is the model's own, log
entry 6). -/
def Obligations.ResetMeetsInvariant : Prop :=
  State.reset.Inv ∧ ∀ (c : Config) (image : Image), (State.construct c image).Inv

/-- Every state the host can reach meets the invariant, whichever image it supplied: `flags[7:3] = 0`, `flags` 0 with
`EXT_CONTROL = false` and `sp = 0` (from R19, R20 and R22), and the image in canonical form, which is the model's own
choice (DESIGN CHOICE, log entry 6). -/
def Obligations.ReachableStatesMeetInvariant : Prop :=
  ∀ s : State, Reachable s → s.Inv

/-- R19 and R22: in every reachable state `sp` is 0, and `flags` is 0 with `EXT_CONTROL = false`. -/
def Obligations.StackPointerAndIdleFlagsStayZero : Prop :=
  ∀ s : State, Reachable s → s.sp = 0#8 ∧ (s.config.extControl = false → s.flags = 0#8)

/-- A memory in canonical form is determined by its 1024 bytes (the model's own form; it makes equal images equal
data). -/
def Obligations.CanonicalMemoriesAreDeterminedByBytes : Prop :=
  ∀ m m' : Memory, m.wf = true → m'.wf = true → (∀ a, a < 1024 → m.readByte a = m'.readByte a) → m = m'
end

