-- ==== Sys2Proof/Laws/Decode.lean ====
section
/-! SUPPORT. The byte order of a word, what the decoder can answer, and what it means to fit a row of the opcode map. -/

namespace Sys2Proof

theorem byte0_wordOfBytes (a b c d : Byte) : byte0 (wordOfBytes a b c d) = a := by
  unfold byte0 wordOfBytes
  ext i h
  simp only [BitVec.getElem_extractLsb', BitVec.getLsbD_append]
  grind

theorem byte1_wordOfBytes (a b c d : Byte) : byte1 (wordOfBytes a b c d) = b := by
  unfold byte1 wordOfBytes
  ext i h
  simp only [BitVec.getElem_extractLsb', BitVec.getLsbD_append]
  grind

theorem byte2_wordOfBytes (a b c d : Byte) : byte2 (wordOfBytes a b c d) = c := by
  unfold byte2 wordOfBytes
  ext i h
  simp only [BitVec.getElem_extractLsb', BitVec.getLsbD_append]
  grind

theorem byte3_wordOfBytes (a b c d : Byte) : byte3 (wordOfBytes a b c d) = d := by
  unfold byte3 wordOfBytes
  ext i h
  simp only [BitVec.getElem_extractLsb', BitVec.getLsbD_append]
  grind

/-- A word is its four bytes. -/
theorem wordOfBytes_bytes (w : Word) : wordOfBytes (byte0 w) (byte1 w) (byte2 w) (byte3 w) = w := by
  unfold byte0 byte1 byte2 byte3 wordOfBytes
  ext i h
  simp only [BitVec.getElem_append, BitVec.getElem_extractLsb']
  grind

/-- Big-endian assembly loses no byte. -/
theorem wordOfBytes_inj {a b c d a' b' c' d' : Byte} :
    wordOfBytes a b c d = wordOfBytes a' b' c' d' ↔ a = a' ∧ b = b' ∧ c = c' ∧ d = d' := by
  constructor
  · intro h
    exact ⟨by simpa [byte0_wordOfBytes] using congrArg byte0 h, by simpa [byte1_wordOfBytes] using congrArg byte1 h, by simpa [byte2_wordOfBytes] using congrArg byte2 h,
      by simpa [byte3_wordOfBytes] using congrArg byte3 h⟩
  · rintro ⟨rfl, rfl, rfl, rfl⟩
    rfl

/-- The mask of format `O` keeps the two mnemonic bytes. -/
theorem wordOfBytes_and_mask (a b c d : Byte) :
    wordOfBytes a b c d &&& 0xFFFF0000#32 = wordOfBytes a b 0#8 0#8 := by
  have hm : (0xFFFF0000#32 : Word) = wordOfBytes 0xFF#8 0xFF#8 0#8 0#8 := by decide
  have hones : ∀ z : Byte, z &&& 0xFF#8 = z := fun z => BitVec.and_allOnes (w := 8)
  rw [hm]
  unfold wordOfBytes
  rw [BitVec.and_append, BitVec.and_append, BitVec.and_append, hones, hones]
  simp

/-- The words that match the LR row are those that begin with its letters; likewise for every format `O` row. -/
theorem fits_operandRow (m : Mnemonic) (m0 m1 : Byte) (w : Word) :
    (OpcodeRow.mk m (wordOfBytes m0 m1 0#8 0#8) 0xFFFF0000#32).fits w = true ↔ byte0 w = m0 ∧ byte1 w = m1 := by
  have h : w &&& 0xFFFF0000#32 = wordOfBytes (byte0 w) (byte1 w) 0#8 0#8 := by
    rw [← wordOfBytes_and_mask (byte0 w) (byte1 w) (byte2 w) (byte3 w), wordOfBytes_bytes]
  simp [OpcodeRow.fits, h, wordOfBytes_inj]

/-- Everything `decodeFour` can answer when it gives an instruction. -/
theorem decodeFour_ok {b0 b1 b2 b3 : Byte} {i : Instr} (h : decodeFour b0 b1 b2 b3 = .ok i) :
    (b0 = 0x4C#8 ∧ b1 = 0x52#8 ∧ i = .lr b2 b3) ∨ (b0 = 0x53#8 ∧ b1 = 0x52#8 ∧ i = .sr b2 b3) ∨
    (b0 = 0x41#8 ∧ b1 = 0x44#8 ∧ i = .ad b2 b3) ∨ (b0 = 0x53#8 ∧ b1 = 0x55#8 ∧ i = .su b2 b3) ∨
    (b0 = 0x43#8 ∧ b1 = 0x52#8 ∧ i = .cr b2 b3) ∨ (b0 = 0x4A#8 ∧ b1 = 0x50#8 ∧ i = .jp b2 b3) ∨
    (b0 = 0x4A#8 ∧ b1 = 0x42#8 ∧ i = .jb b2 b3) ∨
    (b0 = 0x48#8 ∧ b1 = 0x41#8 ∧ b2 = 0x4C#8 ∧ b3 = 0x54#8 ∧ i = .halt) := by
  unfold decodeFour at h
  split at h
  · simp_all
  split at h
  · simp_all
  split at h
  · simp_all
  split at h
  · simp_all
  split at h
  · simp_all
  split at h
  · simp_all
  split at h
  · simp_all
  split at h
  · simp_all
  · cases h

end Sys2Proof
end

