-- ==== Sys2Proof/Laws/Memory.lean ====
section
/-! SUPPORT. The laws of the image: a read after a write, what a write leaves alone, and that every operation keeps the
canonical form. The read laws hold of every list, canonical or not. -/

namespace Sys2Proof.Machine

theorem readByte_eraseCell_self (m : Memory) (a : Nat) : (m.eraseCell a).readByte a = unlistedByte := by
  induction m with
  | nil => rfl
  | cons c rest ih =>
    obtain ⟨k, v⟩ := c
    by_cases h : k = a
    · simpa [Memory.eraseCell, h] using ih
    · simpa [Memory.eraseCell, Memory.readByte, h] using ih

theorem readByte_eraseCell_ne (m : Memory) {a b : Nat} (hab : b ≠ a) : (m.eraseCell a).readByte b = m.readByte b := by
  induction m with
  | nil => rfl
  | cons c rest ih =>
    obtain ⟨k, v⟩ := c
    by_cases h : k = a
    · have : k ≠ b := fun e => hab (e.symm.trans h)
      simp [Memory.eraseCell, Memory.readByte, h, ih]
      intro e; exact absurd e.symm hab
    · simp [Memory.eraseCell, Memory.readByte, h, ih]

/-- A cell put into a memory that lists nothing for its address is what that address reads as. -/
theorem readByte_insertCell_self (m : Memory) (a : Nat) (v : Byte) (h : (m.eraseCell a) = m) :
    (m.insertCell a v).readByte a = v := by
  induction m with
  | nil => simp [Memory.insertCell, Memory.readByte]
  | cons c rest ih =>
    obtain ⟨k, u⟩ := c
    have hk : k ≠ a := by
      intro e
      have hlen : ∀ l : Memory, (l.eraseCell a).length ≤ l.length := by
        intro l
        induction l with
        | nil => simp [Memory.eraseCell]
        | cons d l ihl =>
          obtain ⟨j, w⟩ := d
          by_cases hj : j = a <;> simp [Memory.eraseCell, hj]
          · exact Nat.le_succ_of_le ihl
          · exact ihl
      have := congrArg List.length h
      have h2 := hlen rest
      simp [Memory.eraseCell, e] at this
      omega
    have hrest : Memory.eraseCell rest a = rest := by
      have := h
      simp only [Memory.eraseCell, hk, if_false] at this
      exact (List.cons.inj this).2
    by_cases hlt : a < k
    · simp [Memory.insertCell, Memory.readByte, hlt]
    · simp [Memory.insertCell, Memory.readByte, hlt, hk, ih hrest]

theorem readByte_insertCell_ne (m : Memory) {a b : Nat} (v : Byte) (hab : b ≠ a) :
    (m.insertCell a v).readByte b = m.readByte b := by
  induction m with
  | nil => simp [Memory.insertCell, Memory.readByte, Ne.symm hab]
  | cons c rest ih =>
    obtain ⟨k, u⟩ := c
    by_cases hlt : a < k
    · simp [Memory.insertCell, Memory.readByte, hlt, Ne.symm hab]
    · simp [Memory.insertCell, Memory.readByte, hlt, ih]

theorem eraseCell_idem (m : Memory) (a : Nat) : (m.eraseCell a).eraseCell a = m.eraseCell a := by
  induction m with
  | nil => rfl
  | cons c rest ih =>
    obtain ⟨k, v⟩ := c
    by_cases h : k = a <;> simp [Memory.eraseCell, h, ih]

/-- Everything a byte write does to reads: the written byte at its address, every other byte as before. -/
theorem readByte_writeByte (m : Memory) (a b : Nat) (v : Byte) :
    (m.writeByte a v).readByte b = if b = a then v else m.readByte b := by
  unfold Memory.writeByte
  by_cases hv : v = unlistedByte <;> by_cases hab : b = a
  · subst hab; simp [hv, readByte_eraseCell_self]
  · simp [hv, hab, readByte_eraseCell_ne m hab]
  · subst hab; simp [hv, readByte_insertCell_self _ _ _ (eraseCell_idem m b)]
  · simp [hv, hab, readByte_insertCell_ne _ v hab, readByte_eraseCell_ne m hab]

@[simp] theorem readByte_writeByte_self (m : Memory) (a : Nat) (v : Byte) : (m.writeByte a v).readByte a = v := by
  simp [readByte_writeByte]

theorem readByte_writeByte_ne (m : Memory) {a b : Nat} (v : Byte) (h : b ≠ a) :
    (m.writeByte a v).readByte b = m.readByte b := by
  simp [readByte_writeByte, h]

/-- Everything a word write does to reads: its four bytes, big-endian, and every other byte as before. -/
theorem readByte_writeWord (m : Memory) (a : Addr) (w : Word) (b : Nat) :
    (m.writeWord a w).readByte b =
      if b = a.toNat then byte0 w else if b = a.toNat + 1 then byte1 w else if b = a.toNat + 2 then byte2 w
      else if b = a.toNat + 3 then byte3 w else m.readByte b := by
  simp only [Memory.writeWord, readByte_writeByte]
  grind

/-- A byte outside the four written reads as before. -/
theorem readByte_writeWord_outside (m : Memory) (a : Addr) (w : Word) {b : Nat} (h : b < a.toNat ∨ a.toNat + 4 ≤ b) :
    (m.writeWord a w).readByte b = m.readByte b := by
  rw [readByte_writeWord]
  grind

@[simp] theorem readWord_writeWord_self (m : Memory) (a : Addr) (w : Word) : (m.writeWord a w).readWord a = w := by
  simp [Memory.readWord, readByte_writeWord, wordOfBytes_bytes]

/-! ### Canonical form -/

theorem wfFrom_mono {m : Memory} {lo hi : Nat} (h : Memory.wfFrom hi m = true) (hle : lo ≤ hi) :
    Memory.wfFrom lo m = true := by
  cases m with
  | nil => rfl
  | cons c rest =>
    obtain ⟨k, v⟩ := c
    simp [Memory.wfFrom] at h ⊢
    exact ⟨⟨⟨by omega, h.1.1.2⟩, h.1.2⟩, h.2⟩

theorem wfFrom_eraseCell {m : Memory} {lo : Nat} (h : Memory.wfFrom lo m = true) (a : Nat) :
    Memory.wfFrom lo (m.eraseCell a) = true := by
  induction m generalizing lo with
  | nil => rfl
  | cons c rest ih =>
    obtain ⟨k, v⟩ := c
    simp [Memory.wfFrom] at h
    by_cases hk : k = a
    · simp only [Memory.eraseCell, hk, if_true]
      exact ih (wfFrom_mono h.2 (by omega))
    · simp [Memory.eraseCell, hk, Memory.wfFrom]
      exact ⟨h.1, ih h.2⟩

theorem wfFrom_insertCell {m : Memory} {lo a : Nat} {v : Byte} (h : Memory.wfFrom lo m = true) (hlo : lo ≤ a)
    (ha : a < 1024) (hv : v ≠ unlistedByte) (he : m.eraseCell a = m) : Memory.wfFrom lo (m.insertCell a v) = true := by
  induction m generalizing lo with
  | nil => simp [Memory.insertCell, Memory.wfFrom, hlo, ha, hv]
  | cons c rest ih =>
    obtain ⟨k, u⟩ := c
    have hw := h
    simp [Memory.wfFrom] at h
    by_cases hlt : a < k
    · simp only [Memory.insertCell, hlt, if_true]
      simp [Memory.wfFrom]
      exact ⟨⟨⟨hlo, ha⟩, hv⟩, ⟨⟨by omega, h.1.1.2⟩, h.1.2⟩, h.2⟩
    · have hk : k ≠ a := by
        intro e
        have h1 := readByte_eraseCell_self ((k, u) :: rest) a
        rw [he] at h1
        simp [Memory.readByte, e] at h1
        exact h.1.2 h1
      have hrest : Memory.eraseCell rest a = rest := by
        have h2 := he
        simp only [Memory.eraseCell, hk, if_false] at h2
        exact (List.cons.inj h2).2
      simp only [Memory.insertCell, hlt, if_false]
      simp [Memory.wfFrom]
      exact ⟨h.1, ih h.2 (by omega) hrest⟩

/-- A byte write inside the image keeps the canonical form. -/
theorem wf_writeByte {m : Memory} (h : m.wf = true) {a : Nat} (ha : a < 1024) (v : Byte) : (m.writeByte a v).wf = true := by
  unfold Memory.writeByte
  split
  · exact wfFrom_eraseCell h a
  · exact wfFrom_insertCell (wfFrom_eraseCell h a) (Nat.zero_le a) ha ‹_› (eraseCell_idem m a)

/-- A word write inside the image keeps the canonical form. -/
theorem wf_writeWord {m : Memory} (h : m.wf = true) {a : Addr} (ha : a.toNat + 3 < 1024) (w : Word) :
    (m.writeWord a w).wf = true :=
  wf_writeByte (wf_writeByte (wf_writeByte (wf_writeByte h (by omega) _) (by omega) _) (by omega) _) ha _

/-- A byte sequence laid out inside the image is in canonical form. -/
theorem wfFrom_ofBytes (b : List Byte) (a : Nat) (h : a + b.length ≤ 1024) : Memory.wfFrom a (Memory.ofBytes a b) = true := by
  induction b generalizing a with
  | nil => rfl
  | cons v rest ih =>
    simp at h
    by_cases hv : v = unlistedByte
    · simp only [Memory.ofBytes, hv, if_true]
      exact wfFrom_mono (ih (a + 1) (by omega)) (by omega)
    · simp [Memory.ofBytes, hv, Memory.wfFrom]
      exact ⟨by unfold imageBytes; omega, ih (a + 1) (by omega)⟩

/-- The image of a reset is in canonical form. -/
theorem wf_ofImage (i : Image) : (Memory.ofBytes 0 i.bytes).wf = true :=
  wfFrom_ofBytes i.bytes 0 (by simp [i.size])

/-- An address below every listed one reads as an unlisted address does. -/
theorem readByte_below {m : Memory} {lo a : Nat} (h : Memory.wfFrom lo m = true) (ha : a < lo) : m.readByte a = unlistedByte := by
  induction m generalizing lo with
  | nil => rfl
  | cons c rest ih =>
    obtain ⟨k, v⟩ := c
    simp [Memory.wfFrom] at h
    simp only [Memory.readByte, show k ≠ a by omega, if_false]
    exact ih h.2 (by omega)

end Sys2Proof.Machine
end

