-- ==== Sys2Proof/Laws/State.lean ====
section
/-! SUPPORT. One lemma per field per update of the state. -/

namespace Sys2Proof.Machine

@[simp] theorem commit_pc (p : Plan) (s : State) : (commit p s).pc = pcMux p.sel s.pc := rfl
@[simp] theorem commit_acc (p : Plan) (s : State) : (commit p s).acc = p.acc := rfl
@[simp] theorem commit_flags (p : Plan) (s : State) : (commit p s).flags = p.flags := rfl
@[simp] theorem commit_sp (p : Plan) (s : State) : (commit p s).sp = s.sp := rfl
@[simp] theorem commit_mem (p : Plan) (s : State) : (commit p s).mem = applyStore s.mem p.store := rfl
@[simp] theorem commit_config (p : Plan) (s : State) : (commit p s).config = s.config := rfl
@[simp] theorem commit_status (p : Plan) (s : State) : (commit p s).status = .continued := rfl

@[simp] theorem haltStep_pc (s : State) : (haltStep s).pc = s.pc := rfl
@[simp] theorem haltStep_acc (s : State) : (haltStep s).acc = s.acc := rfl
@[simp] theorem haltStep_flags (s : State) : (haltStep s).flags = s.flags := rfl
@[simp] theorem haltStep_sp (s : State) : (haltStep s).sp = s.sp := rfl
@[simp] theorem haltStep_mem (s : State) : (haltStep s).mem = s.mem := rfl
@[simp] theorem haltStep_config (s : State) : (haltStep s).config = s.config := rfl
@[simp] theorem haltStep_status (s : State) : (haltStep s).status = .halted := rfl

@[simp] theorem start_acc (s : State) : (Plan.start s).acc = s.acc := rfl
@[simp] theorem start_flags (s : State) : (Plan.start s).flags = s.flags := rfl
@[simp] theorem start_store (s : State) : (Plan.start s).store = none := rfl
@[simp] theorem start_sel (s : State) : (Plan.start s).sel = .seq := rfl

@[simp] theorem pcMux_seq (pc : Slot) : pcMux .seq pc = pc + 1#16 := rfl
@[simp] theorem pcMux_jump (t pc : Slot) : pcMux (.jump t) pc = t := rfl
@[simp] theorem pcMux_hold (pc : Slot) : pcMux .hold pc = pc := rfl
@[simp] theorem applyStore_none (m : Memory) : applyStore m none = m := rfl
@[simp] theorem applyStore_some (m : Memory) (a : Addr) (v : Word) : applyStore m (some (a, v)) = m.writeWord a v := rfl

@[simp] theorem construct_pc (c : Config) (i : Image) : (State.construct c i).pc = 0#16 := rfl
@[simp] theorem construct_acc (c : Config) (i : Image) : (State.construct c i).acc = 0#32 := rfl
@[simp] theorem construct_flags (c : Config) (i : Image) : (State.construct c i).flags = 0#8 := rfl
@[simp] theorem construct_sp (c : Config) (i : Image) : (State.construct c i).sp = 0#8 := rfl
@[simp] theorem construct_mem (c : Config) (i : Image) : (State.construct c i).mem = Memory.ofBytes 0 i.bytes := rfl
@[simp] theorem construct_config (c : Config) (i : Image) : (State.construct c i).config = c := rfl
@[simp] theorem construct_status (c : Config) (i : Image) : (State.construct c i).status = .continued := rfl

@[simp] theorem withFetchWord_pc (s : State) (n w : Nat) :
    (s.withFetchWord n w).pc = if codeSlots ≤ s.pc.toNat then 0#16 else s.pc := rfl
@[simp] theorem withFetchWord_acc (s : State) (n w : Nat) : (s.withFetchWord n w).acc = s.acc := rfl
@[simp] theorem withFetchWord_flags (s : State) (n w : Nat) : (s.withFetchWord n w).flags = s.flags := rfl
@[simp] theorem withFetchWord_sp (s : State) (n w : Nat) : (s.withFetchWord n w).sp = s.sp := rfl
@[simp] theorem withFetchWord_config (s : State) (n w : Nat) : (s.withFetchWord n w).config = s.config := rfl
@[simp] theorem withFetchWord_status (s : State) (n w : Nat) : (s.withFetchWord n w).status = s.status := rfl

end Sys2Proof.Machine
end

