-- ==== Sys2Proof/Laws/Exec.lean ====
section
/-! SUPPORT. What each shared operation can answer, said once, and from that what each instruction can answer: the
proofs about a step cite these instead of unfolding it. -/

namespace Sys2Proof.Machine

/-! ### Addresses -/

/-- The address the MAT forms is `(x * 16 + y) * 4` on the low four bits of each operand byte. -/
theorem operandAddress_toNat (x y : Byte) :
    (x.extractLsb' 0 4 ++ y.extractLsb' 0 4 ++ 0#2 : BitVec 10).toNat = (x.toNat % 16 * 16 + y.toNat % 16) * 4 := by
  have hx := (x.extractLsb' 0 4).isLt
  have hy := (y.extractLsb' 0 4).isLt
  rw [BitVec.toNat_append, BitVec.toNat_append, Nat.shiftLeft_eq, Nat.shiftLeft_eq,
    ← Nat.shiftLeft_eq (x.extractLsb' 0 4).toNat 4, ← Nat.shiftLeft_add_eq_or_of_lt hy, Nat.shiftLeft_eq]
  simp [BitVec.extractLsb'_toNat]

/-- The high four bits of a byte are zero exactly when the byte is at most 15. -/
theorem highNibble_eq_zero (b : Byte) : b.extractLsb' 4 4 = 0#4 ↔ b.toNat ≤ 15 := by
  rw [← BitVec.toNat_inj]
  simp [BitVec.extractLsb'_toNat, Nat.shiftRight_eq_div_pow]
  have := b.isLt
  omega

/-- The fetch address of a slot inside the Code region. -/
theorem fetchAddr_toNat {pc : Slot} (h : pc.toNat < 96) : (fetchAddr pc).toNat = 512 + 4 * pc.toNat := by
  simp [fetchAddr, codeBase, instrBytes]
  omega

/-! ### Shared operations -/

/-- Raising a fault gives no next state. -/
theorem raiseFault_next {kind : Slot → Word → Fault} {i : Instr} {s t : State} : raiseFault kind i s ≠ .next t := by
  simp [raiseFault]

/-- With both operand bytes in range the body runs at the translated address. -/
theorem withOperand_some {i : Instr} {x y : Byte} {s : State} {body : Addr → Host.Outcome State Fault Refusal} {ea : Addr}
    (h : translateOperands x y = some ea) : withOperand i x y s body = body ea := by
  simp only [withOperand, h]

/-- With an operand byte out of range the step faults. -/
theorem withOperand_none {i : Instr} {x y : Byte} {s : State} {body : Addr → Host.Outcome State Fault Refusal}
    (h : translateOperands x y = none) : withOperand i x y s body = .fault (.operandOutOfRange s.pc (encode i)) := by
  simp only [withOperand, h, raiseFault]

/-- With `EXT_CONTROL = true` the gate is open. -/
theorem whenExtControl_true {i : Instr} {s : State} {body : Host.Outcome State Fault Refusal}
    (h : s.config.extControl = true) : whenExtControl i s body = body := by
  simp only [whenExtControl, h, if_true]

/-- With `EXT_CONTROL = false` the gate is shut. -/
theorem whenExtControl_false {i : Instr} {s : State} {body : Host.Outcome State Fault Refusal}
    (h : s.config.extControl = false) :
    whenExtControl i s body = .fault (.unimplementedInstruction s.pc (encode i)) := by
  simp [whenExtControl, h, raiseFault]

/-- With an operand word, a next state comes from the body at the translated address. -/
theorem withOperand_next {i : Instr} {x y : Byte} {s t : State} {body : Addr → Host.Outcome State Fault Refusal}
    (h : withOperand i x y s body = .next t) : ∃ ea, translateOperands x y = some ea ∧ body ea = .next t := by
  unfold withOperand at h
  split at h
  · exact absurd h raiseFault_next
  · exact ⟨_, ‹_›, h⟩

/-- Under the gate of `EXT_CONTROL`, a next state comes from the body. -/
theorem whenExtControl_next {i : Instr} {s t : State} {body : Host.Outcome State Fault Refusal}
    (h : whenExtControl i s body = .next t) : s.config.extControl = true ∧ body = .next t := by
  unfold whenExtControl at h
  split at h
  · exact ⟨‹_›, h⟩
  · exact absurd h raiseFault_next

/-- A jump that is taken goes to the narrowed operand word. -/
theorem jumpVia_next {i : Instr} {ea : Addr} {s t : State} (h : jumpVia i ea s = .next t) :
    ∃ target, jumpTarget (s.mem.readWord ea) = some target ∧
      t = commit { Plan.start s with sel := .jump target } s := by
  unfold jumpVia at h
  split at h
  · exact absurd h raiseFault_next
  · exact ⟨_, ‹_›, by cases h; rfl⟩

/-! ### Instructions -/

theorem execLr_next {x y : Byte} {s t : State} (h : execLr x y s = .next t) :
    ∃ ea, translateOperands x y = some ea ∧ t = commit { Plan.start s with acc := s.mem.readWord ea } s := by
  obtain ⟨ea, hea, hb⟩ := withOperand_next h
  exact ⟨ea, hea, by cases hb; rfl⟩

theorem execSr_next {x y : Byte} {s t : State} (h : execSr x y s = .next t) :
    ∃ ea, translateOperands x y = some ea ∧ t = commit { Plan.start s with store := some (ea, s.acc) } s := by
  obtain ⟨ea, hea, hb⟩ := withOperand_next h
  exact ⟨ea, hea, by cases hb; rfl⟩

theorem execAd_next {x y : Byte} {s t : State} (h : execAd x y s = .next t) :
    ∃ ea, translateOperands x y = some ea ∧ t = commit { Plan.start s with acc := s.acc + s.mem.readWord ea } s := by
  obtain ⟨ea, hea, hb⟩ := withOperand_next h
  exact ⟨ea, hea, by cases hb; rfl⟩

theorem execSu_next {x y : Byte} {s t : State} (h : execSu x y s = .next t) :
    ∃ ea, translateOperands x y = some ea ∧ t = commit { Plan.start s with acc := s.acc - s.mem.readWord ea } s := by
  obtain ⟨ea, hea, hb⟩ := withOperand_next h
  exact ⟨ea, hea, by cases hb; rfl⟩

theorem execCr_next {x y : Byte} {s t : State} (h : execCr x y s = .next t) :
    s.config.extControl = true ∧ ∃ ea, translateOperands x y = some ea ∧
      t = commit { Plan.start s with flags := cmpFlags s.acc (s.mem.readWord ea) } s := by
  obtain ⟨hext, hb⟩ := whenExtControl_next h
  obtain ⟨ea, hea, hc⟩ := withOperand_next hb
  exact ⟨hext, ea, hea, by cases hc; rfl⟩

theorem execJp_next {x y : Byte} {s t : State} (h : execJp x y s = .next t) :
    ∃ ea target, translateOperands x y = some ea ∧ jumpTarget (s.mem.readWord ea) = some target ∧
      t = commit { Plan.start s with sel := .jump target } s := by
  obtain ⟨ea, hea, hb⟩ := withOperand_next h
  obtain ⟨target, ht, hc⟩ := jumpVia_next hb
  exact ⟨ea, target, hea, ht, hc⟩

theorem execJb_next {x y : Byte} {s t : State} (h : execJb x y s = .next t) :
    s.config.extControl = true ∧ ∃ ea, translateOperands x y = some ea ∧
      ((flagB s.flags = true ∧ ∃ target, jumpTarget (s.mem.readWord ea) = some target ∧
          t = commit { Plan.start s with sel := .jump target } s) ∨
        (flagB s.flags = false ∧ t = commit (Plan.start s) s)) := by
  obtain ⟨hext, hb⟩ := whenExtControl_next h
  obtain ⟨ea, hea, hc⟩ := withOperand_next hb
  refine ⟨hext, ea, hea, ?_⟩
  cases hB : flagB s.flags with
  | true => exact .inl ⟨rfl, jumpVia_next (by simpa [hB] using hc)⟩
  | false => exact .inr ⟨rfl, by simpa [hB] using hc.symm⟩

theorem execHalt_next {s t : State} (h : execHalt s = .next t) : s.config.extControl = true ∧ t = haltStep s := by
  obtain ⟨hext, hb⟩ := whenExtControl_next h
  exact ⟨hext, by cases hb; rfl⟩

/-! ### The step -/

/-- A step that gives a next state fetched from a slot, decoded an instruction, and executed it. -/
theorem step_next {s t : State} (h : step s = .next t) :
    s.pc.toNat < 96 ∧ ∃ i, decode (s.mem.readWord (fetchAddr s.pc)) = .ok i ∧ exec i s = .next t := by
  unfold step fetch at h
  by_cases hpc : codeSlots ≤ s.pc.toNat
  · simp [hpc] at h
  · simp only [hpc, if_false] at h
    refine ⟨by unfold codeSlots at hpc; omega, ?_⟩
    split at h
    · cases h
    · exact ⟨_, ‹_›, h⟩

end Sys2Proof.Machine
end

