-- ==== Sys2Proof/Laws/PerInstr.lean ====
section
/-! SUPPORT. Facts made per instruction. `RowFit`: an instruction's word fits its own row of the opcode map
(R53). -/

namespace Sys2Proof.Laws

/-- The instruction's word fits a row of the opcode map that bears its mnemonic. -/
def RowFit.Statement (i : Instr) : Prop :=
  ∃ r ∈ opcodeMap, r.mnemonic = i.mnemonic ∧ r.fits (encode i) = true

theorem RowFit.lr (x y : Byte) : RowFit.Statement (.lr x y) :=
  ⟨⟨.LR, wordOfBytes 0x4C#8 0x52#8 0#8 0#8, 0xFFFF0000#32⟩, by decide, rfl,
    (fits_operandRow _ _ _ _).2 ⟨byte0_wordOfBytes _ _ _ _, byte1_wordOfBytes _ _ _ _⟩⟩

theorem RowFit.sr (x y : Byte) : RowFit.Statement (.sr x y) :=
  ⟨⟨.SR, wordOfBytes 0x53#8 0x52#8 0#8 0#8, 0xFFFF0000#32⟩, by decide, rfl,
    (fits_operandRow _ _ _ _).2 ⟨byte0_wordOfBytes _ _ _ _, byte1_wordOfBytes _ _ _ _⟩⟩

theorem RowFit.ad (x y : Byte) : RowFit.Statement (.ad x y) :=
  ⟨⟨.AD, wordOfBytes 0x41#8 0x44#8 0#8 0#8, 0xFFFF0000#32⟩, by decide, rfl,
    (fits_operandRow _ _ _ _).2 ⟨byte0_wordOfBytes _ _ _ _, byte1_wordOfBytes _ _ _ _⟩⟩

theorem RowFit.su (x y : Byte) : RowFit.Statement (.su x y) :=
  ⟨⟨.SU, wordOfBytes 0x53#8 0x55#8 0#8 0#8, 0xFFFF0000#32⟩, by decide, rfl,
    (fits_operandRow _ _ _ _).2 ⟨byte0_wordOfBytes _ _ _ _, byte1_wordOfBytes _ _ _ _⟩⟩

theorem RowFit.cr (x y : Byte) : RowFit.Statement (.cr x y) :=
  ⟨⟨.CR, wordOfBytes 0x43#8 0x52#8 0#8 0#8, 0xFFFF0000#32⟩, by decide, rfl,
    (fits_operandRow _ _ _ _).2 ⟨byte0_wordOfBytes _ _ _ _, byte1_wordOfBytes _ _ _ _⟩⟩

theorem RowFit.jp (x y : Byte) : RowFit.Statement (.jp x y) :=
  ⟨⟨.JP, wordOfBytes 0x4A#8 0x50#8 0#8 0#8, 0xFFFF0000#32⟩, by decide, rfl,
    (fits_operandRow _ _ _ _).2 ⟨byte0_wordOfBytes _ _ _ _, byte1_wordOfBytes _ _ _ _⟩⟩

theorem RowFit.jb (x y : Byte) : RowFit.Statement (.jb x y) :=
  ⟨⟨.JB, wordOfBytes 0x4A#8 0x42#8 0#8 0#8, 0xFFFF0000#32⟩, by decide, rfl,
    (fits_operandRow _ _ _ _).2 ⟨byte0_wordOfBytes _ _ _ _, byte1_wordOfBytes _ _ _ _⟩⟩

theorem RowFit.halt : RowFit.Statement .halt :=
  ⟨⟨.HALT, 0x48414C54#32, 0xFFFFFFFF#32⟩, by decide, rfl, by decide⟩

end Sys2Proof.Laws
end

