-- ==== Sys2Proof/Tests/Slice0.lean ====
section
/-! SUPPORT. The model's own tests: the well-formedness smoke, the decoding of words written out from the table of
R53, single steps whose results are the vectors of `spec/95_test_vectors.md` (named in each comment), and a witness
for the hypotheses of each statement of the certificate. -/

namespace Sys2Proof.Tests

open Sys2Proof Sys2Proof.Machine Sys2Proof.Said

/-! ### Helpers -/

/-- A reset machine with the given registers and words, every other byte zero. -/
def machine (ext : Bool) (pc : Slot) (acc : Word) (flags : Byte) (words : List (Addr × Word)) : State :=
  { State.reset with
    pc := pc, acc := acc, flags := flags, config := { extControl := ext }
    mem := words.foldl (fun m c => m.writeWord c.1 c.2) [] }

def nextOf : Host.Outcome State Fault Refusal → Option State
  | .next t => some t
  | .fault _ => none
  | .refused _ => none

def faultOf : Host.Outcome State Fault Refusal → Option Fault
  | .next _ => none
  | .fault r => some r
  | .refused _ => none

/-! ### Well-formedness smoke: one ill-formed term for each check -/

theorem test_wellFormed_largest_operands : (Instr.lr 15#8 15#8).wellFormed = true := by decide
theorem test_illFormed_lr : (Instr.lr 16#8 0#8).wellFormed = false := by decide
theorem test_illFormed_sr : (Instr.sr 0#8 16#8).wellFormed = false := by decide
theorem test_illFormed_ad : (Instr.ad 255#8 0#8).wellFormed = false := by decide
theorem test_illFormed_su : (Instr.su 0#8 255#8).wellFormed = false := by decide
theorem test_illFormed_cr : (Instr.cr 20#8 0#8).wellFormed = false := by decide
theorem test_illFormed_jp : (Instr.jp 16#8 0#8).wellFormed = false := by decide
theorem test_illFormed_jb : (Instr.jb 0#8 16#8).wellFormed = false := by decide
theorem test_wellFormed_halt : Instr.halt.wellFormed = true := by decide

/-! ### Constants (R4, R5) -/

theorem test_geometry : wordBytes * blockWords = blockBytes ∧ blockBytes * imageBlocks = imageBytes ∧
    paramBlocks + dataBlocks + codeBlocks + reservedBlocks = imageBlocks ∧ codeBlocks * blockBytes / instrBytes = codeSlots ∧
    (paramBlocks + dataBlocks) * blockBytes = codeBase ∧ operandMax + 1 = blockWords := by decide

/-! ### Decoding: words written bit by bit, ASCII letters then operand bytes (R53) -/

theorem test_decode_lr : decode 0b01001100010100100000000000000001#32 = .ok (.lr 0#8 1#8) := by decide
theorem test_decode_sr : decode 0b01010011010100100000100000000101#32 = .ok (.sr 8#8 5#8) := by decide
theorem test_decode_ad : decode 0b01000001010001000000111100000001#32 = .ok (.ad 15#8 1#8) := by decide
theorem test_decode_su : decode 0b01010011010101010000000000000011#32 = .ok (.su 0#8 3#8) := by decide
theorem test_decode_cr : decode 0b01000011010100100001010000000000#32 = .ok (.cr 20#8 0#8) := by decide
theorem test_decode_jp : decode 0b01001010010100000001000000000000#32 = .ok (.jp 16#8 0#8) := by decide
theorem test_decode_jb : decode 0b01001010010000100000000000010000#32 = .ok (.jb 0#8 16#8) := by decide
theorem test_decode_halt : decode 0b01001000010000010100110001010100#32 = .ok .halt := by decide
/-- V8: operands are raw bytes, not digits. -/
theorem test_decode_ascii_operands : decode 0x4C523033#32 = .ok (.lr 48#8 51#8) := by decide
/-- V6, V7 and V5: 'H' 'A' 'L' 'U', lower case, and the all-zero word. -/
theorem test_decode_illegal : decode 0x48414C55#32 = .error (.illegal 0x48414C55#32) ∧
    decode 0x6C720001#32 = .error (.illegal 0x6C720001#32) ∧ decode 0#32 = .error (.illegal 0#32) := by decide
theorem test_decodeBytes_rest : decodeBytes [0x4C#8, 0x52#8, 1#8, 2#8, 9#8] = .ok (.lr 1#8 2#8, [9#8]) := by decide
theorem test_decodeBytes_short : decodeBytes [0x4C#8, 0x52#8, 1#8] = .error .truncated := by decide
theorem test_decodeTableWord : decodeTableWord 32 0x4A420002 = some (.jb 0#8 2#8) := by decide
theorem test_hasOperands : (Instr.jb 0#8 2#8).hasOperands = true ∧ Instr.halt.hasOperands = false := by decide

/-! ### Fetch (V2, V5) -/

theorem test_fetch_past_slots : faultOf (step (machine false 96#16 0#32 0#8 [])) = some (.programCounterOutOfBounds 96#16) := by
  decide
theorem test_fetch_illegal : faultOf (step (machine false 3#16 0x1234#32 0#8 [])) = some (.unrecognizedInstruction 3#16 0#32) := by
  decide

/-! ### One step each, at most two for an instruction -/

/-- V1: slot 95 is the last. -/
theorem test_lr_last_slot : (nextOf (step (machine false 95#16 0#32 0#8 [(892#10, 0x4C520000#32), (0#10, 9#32)]))).map
    (fun t => (t.acc, t.pc)) = some (9#32, 96#16) := by decide
/-- V14: the operand byte 16. -/
theorem test_lr_out_of_range : faultOf (step (machine false 0#16 7#32 0#8 [(512#10, 0x4C521000#32)])) =
    some (.operandOutOfRange 0#16 0x4C521000#32) := by decide
/-- V17: an SR onto its own slot. -/
theorem test_sr_own_slot : (nextOf (step (machine false 5#16 0x4A500000#32 0#8 [(532#10, 0x53520805#32)]))).map
    (fun t => (t.mem.readWord 532#10, t.pc)) = some (0x4A500000#32, 6#16) := by decide
/-- V18: big-endian. -/
theorem test_sr_big_endian : (nextOf (step (machine false 0#16 0x01020304#32 0#8 [(512#10, 0x53520000#32)]))).map
    (fun t => (t.mem.readByte 0, t.mem.readByte 1, t.mem.readByte 2, t.mem.readByte 3)) =
    some (1#8, 2#8, 3#8, 4#8) := by decide
/-- V20: the sum wraps. -/
theorem test_ad_wraps : (nextOf (step (machine false 0#16 0xFFFFFFFF#32 0#8 [(512#10, 0x41440001#32), (4#10, 0xFFFFFFFF#32)]))).map
    (fun t => (t.acc, t.flags, t.pc)) = some (0xFFFFFFFE#32, 0#8, 1#16) := by decide
/-- V22: the difference wraps, and no flag is written. -/
theorem test_su_wraps : (nextOf (step (machine false 0#16 0#32 0#8 [(512#10, 0x53550001#32), (4#10, 1#32)]))).map
    (fun t => (t.acc, t.flags, t.pc)) = some (0xFFFFFFFF#32, 0#8, 1#16) := by decide
/-- V32: earlier flags overwritten, S without B. -/
theorem test_cr_sign : (nextOf (step (machine true 0#16 0xFFFFFFFF#32 6#8 [(512#10, 0x43520005#32)]))).map
    (fun t => (t.flags, t.acc, t.pc)) = some (4#8, 0xFFFFFFFF#32, 1#16) := by decide
/-- V10: the unimplemented fault comes before the operand check. -/
theorem test_cr_unimplemented : faultOf (step (machine false 0#16 0#32 0#8 [(512#10, 0x4352C8C8#32)])) =
    some (.unimplementedInstruction 0#16 0x4352C8C8#32) := by decide
/-- V34: the target is a slot index, and the jump does not add 1. -/
theorem test_jp_target : (nextOf (step (machine false 9#16 0#32 0#8 [(548#10, 0x4A500000#32), (0#10, 5#32)]))).map
    (fun t => t.pc) = some 5#16 := by decide
/-- V36: the first target that does not fit. -/
theorem test_jp_overflow : faultOf (step (machine false 0#16 0#32 0#8 [(512#10, 0x4A500000#32), (0#10, 0x10000#32)])) =
    some (.programCounterOverflow 0#16 0x4A500000#32) := by decide
/-- V39: taken on B. -/
theorem test_jb_taken : (nextOf (step (machine true 7#16 0#32 6#8 [(540#10, 0x4A420002#32)]))).map
    (fun t => t.pc) = some 0#16 := by decide
/-- V41: not taken, so the target word is not checked. -/
theorem test_jb_not_taken : (nextOf (step (machine true 7#16 0#32 0#8 [(540#10, 0x4A420002#32), (8#10, 0xFFFFFFFF#32)]))).map
    (fun t => t.pc) = some 8#16 := by decide
/-- V45: the outcome `Halted`, `pc` kept. -/
theorem test_halt : (advance (machine true 8#16 0#32 0#8 [(544#10, 0x48414C54#32)])).map
    (fun r => (r.1.pc, r.2)) = some (8#16, .halted) := by decide
/-- V9: HALT in the default configuration. -/
theorem test_halt_unimplemented : (advance (machine false 8#16 0#32 0#8 [(544#10, 0x48414C54#32)])).map
    (fun r => r.2) = some (.faulted .unimplementedInstruction 8#16 (some 0x48414C54#32)) := by decide

/-! ### Loader (S5), ports (R11), assembler (R60) -/

theorem test_loader_length : (loadImage (List.replicate 3 1#8)) = .error .malformedProgramImage := by decide
theorem test_ports_out_of_bounds : (advance (machine false 96#16 5#32 0#8 [])).map (fun r => outPorts r.1 r.2) =
    some ⟨2#2, 4#4, some 96#16, some 0#32, some false, 5#32, 0#8, 0#8, 96#16⟩ := by decide
/-- R11: SR goes on, so `status` and `fault_kind` are 0. -/
theorem test_ports_continued : (advance (machine false 0#16 7#32 0#8 [(512#10, 0x53520003#32)])).map
    (fun r => ((outPorts r.1 r.2).status, (outPorts r.1 r.2).faultKind, (outPorts r.1 r.2).dbgPc)) =
    some (0#2, 0#4, 1#16) := by decide
theorem test_bus_of_store : busTrace (machine false 0#16 7#32 0#8 [(512#10, 0x53520003#32)]) =
    [⟨512#10, false, 0x53520003#32⟩, ⟨12#10, true, 7#32⟩] := by decide
theorem test_assemble_lr : assemble ['L', 'R', ' ', '0', ' ', '3'] = some 0x4C520003#32 := by decide
theorem test_assemble_hex : assemble ['S', 'R', ' ', '0', 'x', '0', 'f', ' ', '2', '0', '0'] = some 0x53520FC8#32 := by decide
theorem test_assemble_word : assemble ['.', 'w', 'o', 'r', 'd', ' ', '2', '5', '8'] = some 258#32 := by decide
theorem test_assemble_rejects : assemble ['l', 'r', ' ', '0', ' ', '3'] = none ∧
    assemble ['L', 'R', ' ', '2', '5', '6', ' ', '0'] = none ∧ assemble ['H', 'A', 'L', 'T', ' ', '0'] = none := by decide

/-! ### Witnesses: states and operands that meet the hypotheses of the statements, at the ends of their ranges -/

/-- Slot 95 holds LR 15 15. -/
def lastSlotLr : State := machine false 95#16 1#32 0#8 [(892#10, 0x4C520F0F#32)]
/-- Slot 0 holds HALT, with `EXT_CONTROL = true`. -/
def haltAt0 : State := machine true 0#16 0#32 0#8 [(512#10, 0x48414C54#32)]
/-- Slot 7 holds JP 0 1, whose word is 7. -/
def selfJump : State := machine false 7#16 3#32 0#8 [(540#10, 0x4A500001#32), (4#10, 7#32)]
/-- Slot 5 holds SR 8 5, which names slot 5. -/
def ownStore : State := machine false 5#16 9#32 0#8 [(532#10, 0x53520805#32)]
/-- The word at (0, 1) is `w`, with `EXT_CONTROL = true` and the given flags. -/
def targetWord (w : Word) (flags : Byte) : State := machine true 0#16 1#32 flags [(4#10, w)]

theorem witness_DecodedWordReencodesToItself : decode 0x4C52FF00#32 = .ok (.lr 255#8 0#8) := by decide
theorem witness_DecoderFollowsOpcodeMap_row : ∃ r ∈ opcodeMap, r.fits 0x4A42FFFF#32 = true := by decide
theorem witness_OperandBytesPassUnchanged : decode 0x4352C8FF#32 = .ok (.cr 200#8 255#8) ∧
    (Instr.cr 200#8 255#8).operands = some (200#8, 255#8) := by decide
theorem witness_UnmatchedWordRaisesUnrecognized : (machine false 95#16 0#32 0#8 []).pc.toNat < 96 ∧
    ∀ r ∈ opcodeMap, r.fits (slotWord (machine false 95#16 0#32 0#8 [])) = false := by decide
theorem witness_UnmatchedWordRaisesUnrecognized_ha : (0x48414C55#32).extractLsb' 16 16 = 0x4841#16 ∧
    0x48414C55#32 ≠ 0x48414C54#32 := by decide
theorem witness_StepRunsDecodedInstruction : lastSlotLr.pc.toNat < 96 ∧
    decode (slotWord lastSlotLr) = .ok (.lr 15#8 15#8) := by decide
theorem witness_FetchReadsSlotOrFaults : 96 ≤ (machine false 96#16 0#32 0#8 []).pc.toNat ∧ lastSlotLr.pc.toNat < 96 := by
  decide
theorem witness_FaultedAndHaltedAdvancesRepeat_fault : advance (machine false 96#16 0#32 0#8 []) =
    some (machine false 96#16 0#32 0#8 [], .faulted .programCounterOutOfBounds 96#16 none) := by decide
theorem witness_FaultedAndHaltedAdvancesRepeat_halt : advance haltAt0 =
    some ({ haltAt0 with status := .halted }, .halted) := by decide
theorem witness_BasicInstructionsIgnoreExtControl : (Instr.jp 0#8 1#8).mnemonic.extControlled = false := by decide
/-- Both clauses of every result statement: the last operand in range and the first out of range, in either byte. -/
theorem witness_operand_clauses : InRange 15#8 15#8 ∧ ¬ InRange 16#8 0#8 ∧ ¬ InRange 0#8 16#8 := by decide
/-- The fetch clause of every result statement. -/
theorem witness_fetch_clause : 96 ≤ (machine true 96#16 0#32 0#8 []).pc.toNat := by decide
theorem witness_CompareWritesFlagsFromDifference : (targetWord 1#32 0#8).config.extControl = true ∧ InRange 15#8 15#8 ∧
    ¬ InRange 0#8 16#8 ∧ State.reset.config.extControl = false := by decide
theorem witness_JumpGoesToOperandWord : InRange 0#8 1#8 ∧ (wordAt (targetWord 0xFFFF#32 0#8).mem (offset 0#8 1#8)).toNat = 0xFFFF ∧
    (wordAt (targetWord 0x10000#32 0#8).mem (offset 0#8 1#8)).toNat = 0x10000 := by decide
theorem witness_JumpIfBelowTestsBorrow : (targetWord 0xFFFF#32 2#8).config.extControl = true ∧ InRange 0#8 1#8 ∧
    borrowSet 2#8 = true ∧ borrowSet 0xFD#8 = false ∧
    (wordAt (targetWord 0xFFFF#32 2#8).mem (offset 0#8 1#8)).toNat = 0xFFFF ∧
    (wordAt (targetWord 0x10000#32 2#8).mem (offset 0#8 1#8)).toNat = 0x10000 := by decide
theorem witness_HaltChangesNothing : haltAt0.config.extControl = true ∧ haltAt0.pc.toNat < 96 ∧
    slotWord haltAt0 = 0x48414C54#32 ∧ State.reset.config.extControl = false := by decide
theorem witness_ControlRowsUnimplementedByDefault :
    let s := machine false 95#16 0#32 0#8 [(892#10, 0x4352C8C8#32)]
    s.config.extControl = false ∧ s.pc.toNat < 96 ∧ opOf (slotWord s) = some .CR ∧ Mnemonic.CR.extControlled = true := by
  decide
theorem witness_ControlRowsUnimplementedByDefault_only : faultOf (step (machine false 95#16 0#32 0#8 [(892#10, 0x4352C8C8#32)])) =
    some (.unimplementedInstruction 95#16 0x4352C8C8#32) := by decide
/-- Every instruction gives a next state from some state: the hypothesis of the frames and of the `pc` updates. -/
theorem witness_exec_next : ∀ i ∈ [Instr.lr 0#8 1#8, .sr 0#8 1#8, .ad 0#8 1#8, .su 0#8 1#8, .cr 0#8 1#8, .jp 0#8 1#8,
    .jb 0#8 1#8, .halt], (nextOf (exec i (targetWord 5#32 2#8))).isSome = true := by decide
theorem witness_StoreChangesOnlyAddressedWord : translateOperands 15#8 15#8 = some 1020#10 ∧
    (nextOf (exec (.sr 15#8 15#8) lastSlotLr)).isSome = true := by decide
theorem witness_ProgramCounterUpdates_jb : borrowSet (targetWord 5#32 2#8).flags = true ∧
    borrowSet (targetWord 5#32 5#8).flags = false ∧ (nextOf (exec (.jb 0#8 1#8) (targetWord 5#32 2#8))).isSome = true ∧
    (nextOf (exec (.jb 0#8 1#8) (targetWord 5#32 5#8))).isSome = true := by decide
theorem witness_SequentialStepsStayInSlotRange : (nextOf (step lastSlotLr)).isSome = true ∧
    decode (slotWord lastSlotLr) = .ok (.lr 15#8 15#8) := by decide
theorem witness_SequentialStepsStayInSlotRange_jb :
    let s := machine true 95#16 0#32 0#8 [(892#10, 0x4A420000#32)]
    (nextOf (step s)).isSome = true ∧ decode (slotWord s) = .ok (.jb 0#8 0#8) ∧ borrowSet s.flags = false := by decide
theorem witness_StepWritesOneCategory : (nextOf (step ownStore)).isSome = true := by decide
theorem witness_CompareThenJumpBelow : (nextOf (exec (.cr 0#8 0#8) (targetWord 0xFFFF#32 0#8))).isSome = true ∧
    InRange 0#8 1#8 ∧ (wordAt (targetWord 0xFFFF#32 0#8).mem (offset 0#8 1#8)).toNat ≤ 0xFFFF := by decide
theorem witness_AddThenSubtractRestores : (nextOf (exec (.ad 0#8 1#8) (targetWord 0xFFFFFFFF#32 0#8))).isSome = true := by
  decide
theorem witness_CodeStoreSeenByNextFetch : (95#16).toNat < 96 ∧
    (nextOf (exec (.sr (slotOperand 95).1 (slotOperand 95).2) ownStore)).isSome = true ∧ ownStore.pc.toNat < 96 ∧
    decode (slotWord ownStore) = .ok (.sr (slotOperand ownStore.pc.toNat).1 (slotOperand ownStore.pc.toNat).2) := by decide
theorem witness_JumpPastSlotsFaultsAtNextFetch : InRange 0#8 1#8 ∧
    (wordAt (targetWord 96#32 2#8).mem (offset 0#8 1#8)).toNat = 96 ∧
    (wordAt (targetWord 65535#32 2#8).mem (offset 0#8 1#8)).toNat = 65535 ∧
    (targetWord 96#32 2#8).config.extControl = true ∧ borrowSet (targetWord 96#32 2#8).flags = true := by decide
theorem witness_JumpToOwnSlotNeverStops : selfJump.pc.toNat < 96 ∧ decode (slotWord selfJump) = .ok (.jp 0#8 1#8) ∧
    InRange 0#8 1#8 ∧ (wordAt selfJump.mem (offset 0#8 1#8)).toNat = selfJump.pc.toNat := by decide
theorem witness_TranslatorComputesWordOffset : InRange 15#8 15#8 ∧ 15 < (16#8).toNat ∧
    (Instr.cr 16#8 0#8).operands = some (16#8, 0#8) ∧ haltAt0.config.extControl = true := by decide
theorem witness_OperandPairsNameEachWordOnce : translateOperands 15#8 15#8 = some 1020#10 ∧ (1020#10).toNat % 4 = 0 := by
  decide
theorem witness_OperandPairRegions : translateOperands 0#8 15#8 = some 60#10 ∧ translateOperands 7#8 15#8 = some 508#10 ∧
    translateOperands 13#8 15#8 = some 892#10 ∧ translateOperands 14#8 0#8 = some 896#10 ∧ (95#16).toNat ≤ 95 := by decide
theorem witness_AccessesAlignedAndInImage : busTrace lastSlotLr = [⟨892#10, false, 0x4C520F0F#32⟩, ⟨1020#10, false, 0#32⟩] := by
  decide
theorem witness_BusCarriesFetchThenOneDataAccess : ownStore.pc.toNat < 96 ∧
    decode (slotWord ownStore) = .ok (.sr 8#8 5#8) ∧ (nextOf (step ownStore)).isSome = true := by decide
theorem witness_BusCarriesFetchThenOneDataAccess_jb :
    let s := machine true 0#16 0#32 2#8 [(512#10, 0x4A42000F#32), (60#10, 0xFFFF#32)]
    s.pc.toNat < 96 ∧ decode (slotWord s) = .ok (.jb 0#8 15#8) ∧ borrowSet s.flags = true ∧
    (nextOf (step s)).isSome = true := by decide
theorem witness_FaultPortsCarryReport : faultOf (step State.reset) = some (.unrecognizedInstruction 0#16 0#32) ∧
    faultOf (step (machine false 96#16 0#32 0#8 [])) = some (.programCounterOutOfBounds 96#16) := by decide
/-- Each outcome of an advance: Continued, Halted and Faulted. -/
theorem witness_PortsShowOutcomeAndRegisters : opOf (slotWord lastSlotLr) = some .LR ∧ opOf (slotWord haltAt0) = some .HALT ∧
    (advance lastSlotLr).map (fun r => r.2) = some .continued ∧ (advance haltAt0).map (fun r => r.2) = some .halted ∧
    (advance State.reset).map (fun r => r.2) = some (.faulted .unrecognizedInstruction 0#16 (some 0#32)) := by decide
theorem witness_LoaderAcceptsOnlyFullImages : (List.replicate 1024 0#8).length = 1024 ∧
    (List.replicate 1023 0#8).length ≠ 1024 ∧ (List.replicate 1025 0#8).length ≠ 1024 := by
  simp only [List.length_replicate]; decide
theorem witness_ImageReadBackRebuildsMemory : ownStore.mem.wf = true := by decide
theorem witness_PlacedWordIsRunNext : 0x4C520001 < 2 ^ 32 ∧ decodeTableWord 32 0x4C520001 = some (.lr 0#8 1#8) ∧
    State.reset.pc.toNat < 96 := by decide
theorem witness_StepKeepsInvariant : ownStore.Inv ∧ (nextOf (step ownStore)).isSome = true := by decide
theorem witness_Reachable : Reachable (State.construct Config.default ⟨List.replicate 1024 0#8, List.length_replicate⟩) :=
  Reachable.reset _ _
theorem witness_CanonicalMemoriesAreDeterminedByBytes : Memory.wf [(0, 1#8), (1023, 255#8)] = true := by decide

/-- The host's question, on one row of each kind: the placed word runs as the first instruction after reset. -/
theorem test_withFetchWord : (nextOf (step (State.reset.withFetchWord 32 0x4C520800))).map (fun t => (t.acc, t.pc)) =
    some (0x4C520800#32, 1#16) := by decide

end Sys2Proof.Tests
end

/-! ## The family `00_scope.md`

What a step can answer (R10, R83), which operation a fetched word names (R53), and what a step shows at the ports
(R11) and on the memory port (R45). -/

namespace Sys2Proof.Machine

open Sys2Proof.Said

/-! ### The word of a slot and the operation it names -/

/-- The slot's word, written with numbers, is the word the fetch reads (R42). -/
theorem slotWord_eq_readWord {s : State} (h : s.pc.toNat < 96) : slotWord s = s.mem.readWord (fetchAddr s.pc) := by
  simp only [slotWord, wordAt, Memory.readWord, wordOfBytes, fetchAddr_toNat h]

/-- Matching a format `O` row of R53 is having its two letters. -/
theorem and_mask_eq_iff (w : Word) (m0 m1 : Byte) :
    w &&& 0xFFFF0000#32 = wordOfBytes m0 m1 0#8 0#8 ↔ byte0 w = m0 ∧ byte1 w = m1 := by
  rw [← fits_operandRow .LR m0 m1 w]
  simp [OpcodeRow.fits]

/-- Matching the HALT row of R53 is having its four letters. -/
theorem eq_haltWord_iff (w : Word) :
    w &&& 0xFFFFFFFF#32 = 0x48414C54#32 ↔
      byte0 w = 0x48#8 ∧ byte1 w = 0x41#8 ∧ byte2 w = 0x4C#8 ∧ byte3 w = 0x54#8 := by
  have hones : w &&& 0xFFFFFFFF#32 = w := BitVec.and_allOnes (w := 32)
  rw [hones, ← wordOfBytes_inj, wordOfBytes_bytes]
  rfl

/-- The match-and-mask reading of the opcode map (R53) and the decoder's match on bytes (R52) name the same
operation. -/
theorem opOf_eq_decode (w : Word) : opOf w = (decode w).toOption.map Instr.mnemonic := by
  unfold opOf decode decodeFour
  simp only [eq_haltWord_iff,
    show (0x4C520000#32 : Word) = wordOfBytes 0x4C#8 0x52#8 0#8 0#8 from rfl,
    show (0x53520000#32 : Word) = wordOfBytes 0x53#8 0x52#8 0#8 0#8 from rfl,
    show (0x41440000#32 : Word) = wordOfBytes 0x41#8 0x44#8 0#8 0#8 from rfl,
    show (0x53550000#32 : Word) = wordOfBytes 0x53#8 0x55#8 0#8 0#8 from rfl,
    show (0x43520000#32 : Word) = wordOfBytes 0x43#8 0x52#8 0#8 0#8 from rfl,
    show (0x4A500000#32 : Word) = wordOfBytes 0x4A#8 0x50#8 0#8 0#8 from rfl,
    show (0x4A420000#32 : Word) = wordOfBytes 0x4A#8 0x42#8 0#8 0#8 from rfl,
    and_mask_eq_iff]
  split_ifs <;> rfl

/-! ### What a step answers -/

/-- The construction-time kind is no step fault's (R84). -/
theorem Fault.kind_ne_malformedProgramImage (r : Fault) : r.kind ≠ .malformedProgramImage := by
  cases r <;> simp [Fault.kind]

/-- An outcome the spec allows a step of `s` (R10): a next state, or a step fault (R83, R84) of the step's own `pc`. -/
def Answers (s : State) (o : Host.Outcome State Fault Refusal) : Prop :=
  (∃ t, o = .next t) ∨ ∃ r, o = .fault r ∧ r.kind ≠ .malformedProgramImage ∧ r.slot = s.pc

theorem answers_next (s t : State) : Answers s (.next t) := .inl ⟨t, rfl⟩

theorem answers_fault {s : State} {r : Fault} (hslot : r.slot = s.pc) : Answers s (.fault r) :=
  .inr ⟨r, rfl, r.kind_ne_malformedProgramImage, hslot⟩

theorem withOperand_answers {i : Instr} {x y : Byte} {s : State} {body : Addr → Host.Outcome State Fault Refusal}
    (h : ∀ ea, Answers s (body ea)) : Answers s (withOperand i x y s body) := by
  cases hea : translateOperands x y with
  | none => rw [withOperand_none hea]; exact answers_fault rfl
  | some ea => rw [withOperand_some hea]; exact h ea

theorem whenExtControl_answers {i : Instr} {s : State} {body : Host.Outcome State Fault Refusal}
    (h : Answers s body) : Answers s (whenExtControl i s body) := by
  cases hext : s.config.extControl with
  | false => rw [whenExtControl_false hext]; exact answers_fault rfl
  | true => rw [whenExtControl_true hext]; exact h

theorem jumpVia_answers (i : Instr) (ea : Addr) (s : State) : Answers s (jumpVia i ea s) := by
  unfold jumpVia
  split
  · exact answers_fault rfl
  · exact answers_next _ _

theorem exec_answers (i : Instr) (s : State) : Answers s (exec i s) := by
  cases i with
  | lr x y => exact withOperand_answers fun _ => answers_next _ _
  | sr x y => exact withOperand_answers fun _ => answers_next _ _
  | ad x y => exact withOperand_answers fun _ => answers_next _ _
  | su x y => exact withOperand_answers fun _ => answers_next _ _
  | cr x y => exact whenExtControl_answers (withOperand_answers fun _ => answers_next _ _)
  | jp x y => exact withOperand_answers fun ea => jumpVia_answers _ ea s
  | jb x y =>
    refine whenExtControl_answers (withOperand_answers fun ea => ?_)
    split
    · exact jumpVia_answers _ ea s
    · exact answers_next _ _
  | halt => exact whenExtControl_answers (answers_next _ _)

theorem step_answers (s : State) : Answers s (step s) := by
  unfold step fetch
  split_ifs with hpc
  · exact answers_fault rfl
  · dsimp only
    split
    · exact answers_fault rfl
    · exact exec_answers _ s

/-! ### The reported status -/

/-- Only HALT completes with `Halted`; every other instruction that completes has committed (R67, R69, R81). -/
theorem exec_status {i : Instr} {s t : State} (h : exec i s = .next t) :
    t.status = if i.mnemonic = .HALT then .halted else .continued := by
  cases i with
  | lr x y => obtain ⟨_, _, rfl⟩ := execLr_next h; rfl
  | sr x y => obtain ⟨_, _, rfl⟩ := execSr_next h; rfl
  | ad x y => obtain ⟨_, _, rfl⟩ := execAd_next h; rfl
  | su x y => obtain ⟨_, _, rfl⟩ := execSu_next h; rfl
  | cr x y => obtain ⟨_, _, _, rfl⟩ := execCr_next h; rfl
  | jp x y => obtain ⟨_, _, _, _, rfl⟩ := execJp_next h; rfl
  | jb x y => obtain ⟨_, _, _, ⟨_, _, _, rfl⟩ | ⟨_, rfl⟩⟩ := execJb_next h <;> rfl
  | halt => obtain ⟨_, rfl⟩ := execHalt_next h; rfl

/-- A step that gives a next state reports `Halted` exactly where the slot's word is HALT (R81). -/
theorem step_status {s t : State} (h : step s = .next t) :
    t.status = if opOf (slotWord s) = some .HALT then .halted else .continued := by
  obtain ⟨hpc, i, hdec, hexec⟩ := step_next h
  have hop : opOf (slotWord s) = some i.mnemonic := by
    rw [slotWord_eq_readWord hpc, opOf_eq_decode, hdec]; rfl
  rw [exec_status hexec, hop]
  simp only [Option.some.injEq]

/-- The reply to an advance whose step gives a next state (R97). -/
def StepStatus.result : StepStatus → StepResult
  | .continued => .continued
  | .halted => .halted

theorem advance_of_next {s t : State} (h : step s = .next t) : advance s = some (t, t.status.result) := by
  simp only [advance, h]
  cases t.status <;> rfl

/-! ### The output ports -/

@[simp] theorem outPorts_dbgAcc (s : State) (r : StepResult) : (outPorts s r).dbgAcc = s.acc := by cases r <;> rfl
@[simp] theorem outPorts_dbgFlags (s : State) (r : StepResult) : (outPorts s r).dbgFlags = s.flags := by cases r <;> rfl
@[simp] theorem outPorts_dbgSp (s : State) (r : StepResult) : (outPorts s r).dbgSp = s.sp := by cases r <;> rfl
@[simp] theorem outPorts_dbgPc (s : State) (r : StepResult) : (outPorts s r).dbgPc = s.pc := by cases r <;> rfl

/-- The code 3 of the `status` port is unused (R11). -/
theorem outPorts_status_ne_three (s : State) (r : StepResult) : (outPorts s r).status ≠ 3#2 := by
  cases r <;> simp [outPorts]

theorem outPorts_status_result (s : State) (st : StepStatus) :
    (outPorts s st.result).status = if st = .halted then 1#2 else 0#2 := by cases st <;> rfl

theorem outPorts_faultKind_result (s : State) (st : StepStatus) : (outPorts s st.result).faultKind = 0#4 := by
  cases st <;> rfl

/-! ### The memory port -/

@[simp] theorem applyAccess_readAccess (m m' : Memory) (a : Addr) : applyAccess m (readAccess m' a) = m := rfl

/-- The traffic of a step that decodes an instruction: the fetch, then the instruction's data access (R45). -/
theorem busTrace_of_decode {s : State} {i : Instr} (hpc : s.pc.toNat < 96)
    (hdec : decode (s.mem.readWord (fetchAddr s.pc)) = .ok i) :
    busTrace s = readAccess s.mem (fetchAddr s.pc) :: (dataAccess s i).toList := by
  have hfetch : fetch s = .ok (s.mem.readWord (fetchAddr s.pc)) := if_neg (by simpa [codeSlots] using hpc)
  simp only [busTrace, hfetch, hdec]

/-- A translated operand word that is only read leaves the image alone. -/
theorem foldl_readAccess (o : Option Addr) (m m' : Memory) :
    (o.map (readAccess m')).toList.foldl applyAccess m = m := by cases o <;> rfl

/-- An instruction that completes changes the image as its data access says: SR's write, and nothing else (R67,
R73). -/
theorem exec_mem_eq_dataAccess {i : Instr} {s t : State} (h : exec i s = .next t) :
    t.mem = (dataAccess s i).toList.foldl applyAccess s.mem := by
  cases i with
  | lr x y => obtain ⟨_, _, rfl⟩ := execLr_next h; exact (foldl_readAccess _ _ _).symm
  | sr x y => obtain ⟨ea, hea, rfl⟩ := execSr_next h; simp [dataAccess, hea, applyAccess]
  | ad x y => obtain ⟨_, _, rfl⟩ := execAd_next h; exact (foldl_readAccess _ _ _).symm
  | su x y => obtain ⟨_, _, rfl⟩ := execSu_next h; exact (foldl_readAccess _ _ _).symm
  | cr x y =>
    obtain ⟨hext, _, _, rfl⟩ := execCr_next h
    simp only [dataAccess, hext, if_true, foldl_readAccess]
    rfl
  | jp x y => obtain ⟨_, _, _, _, rfl⟩ := execJp_next h; exact (foldl_readAccess _ _ _).symm
  | jb x y =>
    obtain ⟨hext, ea, hea, ⟨hB, _, _, rfl⟩ | ⟨hB, rfl⟩⟩ := execJb_next h <;> simp [dataAccess, hext, hea, hB]
  | halt => obtain ⟨_, rfl⟩ := execHalt_next h; rfl

/-! ### Two states that a step does not tell apart

`f` turns the next state of `s` into that of `s'`: the fields in which `s` and `s'` differ are carried along. -/

theorem raiseFault_mapNext {f : State → State} {kind : Slot → Word → Fault} {i : Instr} {s s' : State}
    (hpc : s'.pc = s.pc) : raiseFault kind i s' = mapNext f (raiseFault kind i s) := by
  simp only [raiseFault, mapNext, hpc]

theorem withOperand_mapNext {f : State → State} {i : Instr} {x y : Byte} {s s' : State}
    {body body' : Addr → Host.Outcome State Fault Refusal} (hpc : s'.pc = s.pc)
    (hbody : ∀ ea, body' ea = mapNext f (body ea)) :
    withOperand i x y s' body' = mapNext f (withOperand i x y s body) := by
  unfold withOperand
  split
  · exact raiseFault_mapNext hpc
  · exact hbody _

theorem jumpVia_mapNext {f : State → State} {i : Instr} {ea : Addr} {s s' : State} (hpc : s'.pc = s.pc)
    (hmem : s'.mem = s.mem)
    (hcommit : ∀ target, commit { Plan.start s' with sel := .jump target } s' =
      f (commit { Plan.start s with sel := .jump target } s)) :
    jumpVia i ea s' = mapNext f (jumpVia i ea s) := by
  unfold jumpVia
  rw [hmem]
  split
  · exact raiseFault_mapNext hpc
  · exact congrArg _ (hcommit _)

end Sys2Proof.Machine

namespace Sys2Proof.Proofs

open Sys2Proof.Machine Sys2Proof.Said

/-- Settles O12: every operation that ends a step answers with a next state or with a step fault of the step's
`pc`. -/
theorem everyStepAnswersWithoutRefusal : Obligations.EveryStepAnswersWithoutRefusal :=
  step_answers

/-- Settles O43: the fetch only reads, and the data access writes what the instruction's commit writes. -/
theorem memoryChangesOnlyByBusWrites : Obligations.MemoryChangesOnlyByBusWrites := by
  intro s t h
  obtain ⟨hpc, i, hdec, hexec⟩ := step_next h
  rw [busTrace_of_decode hpc hdec, List.foldl_cons, applyAccess_readAccess]
  exact exec_mem_eq_dataAccess hexec

/-- Settles O56: the reply shows the status the step left, which is `Halted` exactly for HALT, and the `dbg` ports are
wired to the registers whatever the reply. -/
theorem portsShowOutcomeAndRegisters : Obligations.PortsShowOutcomeAndRegisters := by
  refine ⟨fun s t h => ⟨t.status.result, advance_of_next h, ?_, outPorts_faultKind_result t _⟩, fun s t res _ => ?_⟩
  · rw [outPorts_status_result, step_status h]
    by_cases hop : opOf (slotWord s) = some .HALT <;> simp [hop]
  · exact ⟨outPorts_dbgAcc t res, outPorts_dbgFlags t res, outPorts_dbgSp t res, outPorts_dbgPc t res,
      outPorts_status_ne_three t res⟩

/-- Settles O15: none of the five passes the gate of `EXT_CONTROL`, and nothing else reads the configuration. -/
theorem basicInstructionsIgnoreExtControl : Obligations.BasicInstructionsIgnoreExtControl := by
  intro i c s hbasic
  cases i with
  | lr x y => exact withOperand_mapNext rfl fun _ => rfl
  | sr x y => exact withOperand_mapNext rfl fun _ => rfl
  | ad x y => exact withOperand_mapNext rfl fun _ => rfl
  | su x y => exact withOperand_mapNext rfl fun _ => rfl
  | cr x y => cases hbasic
  | jp x y => exact withOperand_mapNext rfl fun _ => jumpVia_mapNext rfl rfl fun _ => rfl
  | jb x y => cases hbasic
  | halt => cases hbasic

end Sys2Proof.Proofs

/-! ## The family `10_state.md`

What a completed instruction writes and what it leaves (R16 to R25), the invariant of the machine (R19, R20, R22), and
the canonical form of the image (log entry 6). -/

namespace Sys2Proof.Machine

open Sys2Proof.Said

/-! ### The flags -/

/-- CR leaves bits 7:3 of the flags at 0 (R20, R77). -/
theorem cmpFlags_highBits (acc w : Word) : (cmpFlags acc w).extractLsb' 3 5 = 0#5 := by
  unfold cmpFlags
  ext i hi
  simp only [BitVec.getElem_extractLsb', BitVec.getLsbD_append]
  grind

/-- CR sets B exactly when the accumulator is below the compared word (R20, R77). -/
theorem flagB_cmpFlags (acc w : Word) : flagB (cmpFlags acc w) = decide (acc.toNat < w.toNat) := by
  simp only [flagB, cmpFlags, BitVec.getLsbD_append, BitVec.ult]
  simp

/-- The bit JB tests is `flags[1]` as a number (R21). -/
theorem flagB_eq_borrowSet (f : Byte) : flagB f = borrowSet f := by
  simp [flagB, borrowSet, BitVec.getLsbD, Nat.testBit_eq_decide_div_mod_eq, beq_eq_decide]

/-! ### The operand word -/

/-- The MAT answers only for operand bytes in range (R40), with the offset the pair names (R39). -/
theorem translateOperands_eq_some {x y : Byte} {ea : Addr} (h : translateOperands x y = some ea) :
    InRange x y ∧ ea.toNat = offset x y := by
  unfold translateOperands at h
  split at h
  · cases h
  · rename_i hnib
    simp only [ne_eq, not_or, not_not, highNibble_eq_zero] at hnib
    obtain ⟨hx, hy⟩ := hnib
    cases h
    refine ⟨⟨hx, hy⟩, ?_⟩
    rw [operandAddress_toNat, offset, Nat.mod_eq_of_lt (by omega), Nat.mod_eq_of_lt (by omega)]

/-- The MAT answers for every pair of operand bytes in range (R40). -/
theorem exists_translateOperands {x y : Byte} (h : InRange x y) : ∃ ea, translateOperands x y = some ea := by
  obtain ⟨hx, hy⟩ := h
  refine ⟨_, if_neg ?_⟩
  simp only [ne_eq, highNibble_eq_zero]
  omega

/-- The four bytes at a translated address lie in the image (R44). -/
theorem translateOperands_inImage {x y : Byte} {ea : Addr} (h : translateOperands x y = some ea) :
    ea.toNat + 3 < 1024 := by
  obtain ⟨⟨hx, hy⟩, hea⟩ := translateOperands_eq_some h
  unfold offset at hea
  omega

/-- The word read at a translated address is the word the operand pair names (R39). -/
theorem readWord_eq_wordAt (m : Memory) {x y : Byte} {ea : Addr} (h : translateOperands x y = some ea) :
    m.readWord ea = wordAt m (offset x y) := by
  rw [← (translateOperands_eq_some h).2]
  rfl

/-! ### Jumps -/

/-- A jump target is the word it was narrowed from: no bit is dropped (R78, R79). -/
theorem jumpTarget_toNat {w : Word} {target : Slot} (h : jumpTarget w = some target) : target.toNat = w.toNat := by
  unfold jumpTarget at h
  split at h
  · cases h
  · cases h
    simp only [BitVec.extractLsb'_toNat, Nat.shiftRight_zero]
    exact Nat.mod_eq_of_lt (by omega)

/-- A jump whose word fits goes to the slot the word names (R79). -/
theorem jumpVia_of_fits {i : Instr} {ea : Addr} {s : State} (h : (s.mem.readWord ea).toNat ≤ 0xFFFF) :
    jumpVia i ea s =
      .next { s with pc := BitVec.ofNat 16 (s.mem.readWord ea).toNat, status := .continued } := by
  have htarget : jumpTarget (s.mem.readWord ea) = some (BitVec.ofNat 16 (s.mem.readWord ea).toNat) :=
    if_neg (Nat.not_lt.2 h)
  simp only [jumpVia, htarget]
  rfl

/-- JP with operand bytes in range whose word fits goes to it (R79). -/
theorem execJp_of_fits {x y : Byte} {s : State} (h : InRange x y)
    (hfits : (wordAt s.mem (offset x y)).toNat ≤ 0xFFFF) :
    execJp x y s =
      .next { s with pc := BitVec.ofNat 16 (wordAt s.mem (offset x y)).toNat, status := .continued } := by
  obtain ⟨ea, hea⟩ := exists_translateOperands h
  rw [← readWord_eq_wordAt s.mem hea] at hfits ⊢
  rw [execJp, withOperand_some hea, jumpVia_of_fits hfits]

/-- JB with `B` set, operand bytes in range and a word that fits goes to it (R80). -/
theorem execJb_taken_of_fits {x y : Byte} {s : State} (hext : s.config.extControl = true) (hB : borrowSet s.flags = true)
    (h : InRange x y) (hfits : (wordAt s.mem (offset x y)).toNat ≤ 0xFFFF) :
    execJb x y s =
      .next { s with pc := BitVec.ofNat 16 (wordAt s.mem (offset x y)).toNat, status := .continued } := by
  obtain ⟨ea, hea⟩ := exists_translateOperands h
  rw [← readWord_eq_wordAt s.mem hea] at hfits ⊢
  rw [execJb, whenExtControl_true hext, withOperand_some hea, flagB_eq_borrowSet, hB, if_pos rfl, jumpVia_of_fits hfits]

/-- JB with `B` clear and operand bytes in range goes on to the next slot (R80). -/
theorem execJb_not_taken {x y : Byte} {s : State} (hext : s.config.extControl = true)
    (hB : borrowSet s.flags = false) (h : InRange x y) : execJb x y s = .next (sequential s) := by
  obtain ⟨ea, hea⟩ := exists_translateOperands h
  rw [execJb, whenExtControl_true hext, withOperand_some hea, flagB_eq_borrowSet, hB]
  rfl

/-- A `pc` that names no slot faults at the fetch (R15, R42). -/
theorem step_of_pc_outside {s : State} (h : 96 ≤ s.pc.toNat) : step s = .fault (.programCounterOutOfBounds s.pc) := by
  simp only [step, fetch, codeSlots, if_pos h]

/-! ### What a completed instruction does -/

/-- What an instruction that gives a next state may have written (R16, and the W entries of R25): the frames, the
sequential `pc` and the invariant follow from these six cases. -/
inductive Completes (i : Instr) (s : State) : State → Prop
  /-- LR, AD and SU write the accumulator. -/
  | writesAcc (hm : i.mnemonic = .LR ∨ i.mnemonic = .AD ∨ i.mnemonic = .SU) (v : Word) :
    Completes i s { sequential s with acc := v }
  /-- SR stores the accumulator at its translated address. -/
  | stores {x y : Byte} {ea : Addr} (hi : i = .sr x y) (hea : translateOperands x y = some ea) :
    Completes i s { sequential s with mem := s.mem.writeWord ea s.acc }
  /-- CR, which needs `EXT_CONTROL = true`, writes the flags. -/
  | compares (hm : i.mnemonic = .CR) (hext : s.config.extControl = true) (w : Word) :
    Completes i s { sequential s with flags := cmpFlags s.acc w }
  /-- JP and a taken JB write `pc`. -/
  | jumps (hm : i.mnemonic = .JP ∨ i.mnemonic = .JB ∧ borrowSet s.flags = true) (target : Slot) :
    Completes i s { sequential s with pc := target }
  /-- A JB that is not taken goes on to the next slot. -/
  | fallsThrough (hm : i.mnemonic = .JB) : Completes i s (sequential s)
  /-- HALT writes nothing but the reported status. -/
  | halts (hm : i.mnemonic = .HALT) : Completes i s { s with status := .halted }

theorem exec_completes {i : Instr} {s t : State} (h : exec i s = .next t) : Completes i s t := by
  cases i with
  | lr x y => obtain ⟨_, _, rfl⟩ := execLr_next h; exact .writesAcc (.inl rfl) _
  | sr x y => obtain ⟨_, hea, rfl⟩ := execSr_next h; exact .stores rfl hea
  | ad x y => obtain ⟨_, _, rfl⟩ := execAd_next h; exact .writesAcc (.inr (.inl rfl)) _
  | su x y => obtain ⟨_, _, rfl⟩ := execSu_next h; exact .writesAcc (.inr (.inr rfl)) _
  | cr x y => obtain ⟨hext, _, _, rfl⟩ := execCr_next h; exact .compares rfl hext _
  | jp x y => obtain ⟨_, target, _, _, rfl⟩ := execJp_next h; exact .jumps (.inl rfl) target
  | jb x y =>
    obtain ⟨_, _, _, ⟨hB, target, _, rfl⟩ | ⟨_, rfl⟩⟩ := execJb_next h
    · exact .jumps (.inr ⟨rfl, flagB_eq_borrowSet s.flags ▸ hB⟩) target
    · exact .fallsThrough rfl
  | halt => obtain ⟨_, rfl⟩ := execHalt_next h; exact .halts rfl

namespace Completes

variable {i : Instr} {s t : State}

theorem acc_eq (h : Completes i s t) (hlr : i.mnemonic ≠ .LR) (had : i.mnemonic ≠ .AD) (hsu : i.mnemonic ≠ .SU) :
    t.acc = s.acc := by
  cases h with
  | writesAcc hm => simp [hlr, had, hsu] at hm
  | _ => rfl

theorem flags_eq (h : Completes i s t) (hcr : i.mnemonic ≠ .CR) : t.flags = s.flags := by
  cases h with
  | compares hm => exact absurd hm hcr
  | _ => rfl

theorem mem_eq (h : Completes i s t) (hsr : i.mnemonic ≠ .SR) : t.mem = s.mem := by
  cases h with
  | stores hi => exact absurd (congrArg Instr.mnemonic hi) hsr
  | _ => rfl

theorem sp_eq (h : Completes i s t) : t.sp = s.sp := by cases h <;> rfl

theorem config_eq (h : Completes i s t) : t.config = s.config := by cases h <;> rfl

/-- Without a jump or HALT the next slot follows (R16). -/
theorem pc_eq (h : Completes i s t) (hjp : i.mnemonic ≠ .JP) (hhalt : i.mnemonic ≠ .HALT)
    (hjb : i.mnemonic = .JB → ¬ borrowSet s.flags) : t.pc = s.pc + 1#16 := by
  cases h with
  | jumps hm =>
    obtain hm | ⟨hm, hB⟩ := hm
    · exact absurd hm hjp
    · exact absurd hB (hjb hm)
  | halts hm => exact absurd hm hhalt
  | _ => rfl

/-- A store inside the image keeps its canonical form, and CR writes only the three flags and only with
`EXT_CONTROL = true`. -/
theorem inv (h : Completes i s t) (hs : s.Inv) : t.Inv := by
  obtain ⟨hwf, hhigh, hidle, hsp⟩ := hs
  cases h with
  | stores _ hea => exact ⟨wf_writeWord hwf (translateOperands_inImage hea) _, hhigh, hidle, hsp⟩
  | compares _ hext w =>
    exact ⟨hwf, cmpFlags_highBits s.acc w, fun hoff => absurd (hext.symm.trans hoff) (by decide), hsp⟩
  | _ => exact ⟨hwf, hhigh, hidle, hsp⟩

end Completes

/-! ### Faulted advances and the gate -/

/-- A faulted advance leaves the state as it was (R68). -/
theorem advance_faulted {s t : State} {k : FaultKind} {pc : Slot} {raw : Option Word}
    (h : advance s = some (t, .faulted k pc raw)) : t = s := by
  cases hstep : step s with
  | next u =>
    rw [advance_of_next hstep] at h
    cases hst : u.status <;> simp [hst, StepStatus.result] at h
  | fault r => simp only [advance, hstep, Option.some.injEq, Prod.mk.injEq] at h; exact h.1.symm
  | refused r => simp [advance, hstep] at h

/-- The gate of `EXT_CONTROL` tells apart only states of different configurations or slots. -/
theorem whenExtControl_mapNext {f : State → State} {i : Instr} {s s' : State}
    {body body' : Host.Outcome State Fault Refusal} (hconfig : s'.config = s.config) (hpc : s'.pc = s.pc)
    (hbody : body' = mapNext f body) : whenExtControl i s' body' = mapNext f (whenExtControl i s body) := by
  unfold whenExtControl
  rw [hconfig]
  split
  · exact hbody
  · exact raiseFault_mapNext hpc

/-! ### Reset and reachable states -/

theorem reset_inv : State.reset.Inv := ⟨rfl, rfl, fun _ => rfl, rfl⟩

theorem construct_inv (c : Config) (image : Image) : (State.construct c image).Inv :=
  ⟨wf_ofImage image, by rw [construct_flags]; rfl, fun _ => construct_flags c image, construct_sp c image⟩

theorem step_inv {s t : State} (hs : s.Inv) (h : step s = .next t) : t.Inv := by
  obtain ⟨_, i, _, hexec⟩ := step_next h
  exact (exec_completes hexec).inv hs

theorem Reachable.inv {s : State} (h : Reachable s) : s.Inv := by
  induction h with
  | reset c image => exact construct_inv c image
  | step s t _ hstep ih => exact step_inv ih hstep

/-! ### The canonical form of the image -/

theorem wfFrom_cons {lo k : Nat} {v : Byte} {rest : Memory} :
    Memory.wfFrom lo ((k, v) :: rest) = true ↔
      lo ≤ k ∧ k < 1024 ∧ v ≠ unlistedByte ∧ Memory.wfFrom (k + 1) rest = true := by
  simp [Memory.wfFrom, imageBytes, and_assoc]

@[simp] theorem readByte_cons_self (k : Nat) (v : Byte) (rest : Memory) : Memory.readByte ((k, v) :: rest) k = v :=
  if_pos rfl

theorem readByte_cons_ne {k a : Nat} (v : Byte) (rest : Memory) (h : k ≠ a) :
    Memory.readByte ((k, v) :: rest) a = rest.readByte a := if_neg h

/-- The first cell of a canonical memory has the least address that does not read as an unlisted one. -/
theorem head_le_of_readByte_ne {lo k a : Nat} {v : Byte} {rest : Memory}
    (h : Memory.wfFrom lo ((k, v) :: rest) = true)
    (ha : Memory.readByte ((k, v) :: rest) a ≠ unlistedByte) : k ≤ a := by
  obtain ⟨_, hk, hv, hrest⟩ := wfFrom_cons.1 h
  by_contra hlt
  exact ha (readByte_below (wfFrom_cons.2 ⟨le_rfl, hk, hv, hrest⟩) (Nat.lt_of_not_le hlt))

/-- Extensionality of the canonical form: the bytes fix the first cell, and then the rest. -/
theorem eq_of_readByte_eq {m m' : Memory} {lo lo' : Nat} (h : Memory.wfFrom lo m = true) (h' : Memory.wfFrom lo' m' = true)
    (hread : ∀ a, a < 1024 → m.readByte a = m'.readByte a) : m = m' := by
  induction m generalizing m' lo lo' with
  | nil =>
    cases m' with
    | nil => rfl
    | cons c' rest' =>
      obtain ⟨_, hk', hv', _⟩ := wfFrom_cons.1 h'
      exact absurd ((readByte_cons_self _ _ _).symm.trans (hread c'.1 hk').symm) hv'
  | cons c rest ih =>
    obtain ⟨k, v⟩ := c
    obtain ⟨_, hk, hv, hrest⟩ := wfFrom_cons.1 h
    have hreadk := hread k hk
    rw [readByte_cons_self] at hreadk
    cases m' with
    | nil => exact absurd hreadk hv
    | cons c' rest' =>
      obtain ⟨k', v'⟩ := c'
      obtain ⟨_, hk', hv', hrest'⟩ := wfFrom_cons.1 h'
      have hle : k ≤ k' := head_le_of_readByte_ne h (by rwa [hread k' hk', readByte_cons_self])
      have hge : k' ≤ k := head_le_of_readByte_ne h' (by rwa [← hreadk])
      obtain rfl : k = k' := Nat.le_antisymm hle hge
      rw [readByte_cons_self] at hreadk
      have htail : ∀ a, a < 1024 → Memory.readByte rest a = Memory.readByte rest' a := by
        intro a ha
        by_cases hka : k = a
        · rw [readByte_below hrest (by omega), readByte_below hrest' (by omega)]
        · simpa only [readByte_cons_ne _ _ hka] using hread a ha
      rw [hreadk, ih hrest hrest' htail]

end Sys2Proof.Machine

namespace Sys2Proof.Proofs

open Sys2Proof.Machine Sys2Proof.Said

/-- Settles O51: whatever instruction the step runs, its completion keeps the invariant. -/
theorem stepKeepsInvariant : Obligations.StepKeepsInvariant :=
  fun _ _ hs h => step_inv hs h

/-- Settles O25, from the six ways an instruction completes. -/
theorem registersWrittenOnlyByTheirInstructions : Obligations.RegistersWrittenOnlyByTheirInstructions := by
  intro i s t h
  have hc := exec_completes h
  exact ⟨hc.acc_eq, hc.flags_eq, hc.sp_eq, hc.config_eq⟩

/-- Settles O26: only SR completes with a store. -/
theorem nonStoringInstructionsKeepMemory : Obligations.NonStoringInstructionsKeepMemory := by
  intro i s t h hsr
  have hmem := (exec_completes h).mem_eq hsr
  exact ⟨hmem, fun a => by rw [hmem]⟩

/-- Settles O27: SR's store is one word write at the translated address. -/
theorem storeChangesOnlyAddressedWord : Obligations.StoreChangesOnlyAddressedWord := by
  intro x y s t ea hea h a ha
  obtain ⟨ea', hea', rfl⟩ := execSr_next h
  obtain rfl : ea = ea' := Option.some.inj (hea.symm.trans hea')
  exact readByte_writeWord_outside s.mem ea s.acc ha

/-- Settles O28: the sequential instructions by the cases of completion, the jumps by the narrowed operand word. -/
theorem programCounterUpdates : Obligations.ProgramCounterUpdates := by
  refine ⟨?_, ?_, ?_, ?_, ?_, ?_⟩
  · intro x y s t i hi h
    have hseq : i.mnemonic ≠ .JP ∧ i.mnemonic ≠ .HALT ∧ i.mnemonic ≠ .JB := by
      simp only [List.mem_cons, List.not_mem_nil, or_false] at hi
      obtain rfl | rfl | rfl | rfl | rfl := hi <;> simp [Instr.mnemonic]
    obtain ⟨hjp, hhalt, hjb⟩ := hseq
    exact (exec_completes h).pc_eq hjp hhalt fun hm => absurd hm hjb
  · intro x y s t h
    obtain ⟨ea, target, hea, htarget, rfl⟩ := execJp_next h
    rw [← readWord_eq_wordAt s.mem hea]
    exact jumpTarget_toNat htarget
  · intro x y s t h hB
    obtain ⟨_, ea, hea, ⟨_, target, htarget, rfl⟩ | ⟨hclear, _⟩⟩ := execJb_next h
    · rw [← readWord_eq_wordAt s.mem hea]
      exact jumpTarget_toNat htarget
    · rw [flagB_eq_borrowSet, hB] at hclear
      cases hclear
  · intro x y s t h hB
    exact (exec_completes h).pc_eq nofun nofun fun _ => hB
  · intro s t h
    obtain ⟨_, rfl⟩ := execHalt_next h
    rfl
  · intro s t k pc raw h
    rw [advance_faulted h]

/-- Settles O29: the fetch bounds `pc` by 95, so the 16-bit increment does not wrap. -/
theorem sequentialStepsStayInSlotRange : Obligations.SequentialStepsStayInSlotRange := by
  intro s t i h hdec hjp hhalt hjb
  obtain ⟨hpc, j, hj, hexec⟩ := step_next h
  rw [slotWord_eq_readWord hpc] at hdec
  obtain rfl : i = j := Except.ok.inj (hdec.symm.trans hj)
  rw [(exec_completes hexec).pc_eq hjp hhalt hjb, BitVec.toNat_add]
  simp only [BitVec.toNat_ofNat]
  omega

/-- Settles O31: no operation but the commit of the named instructions looks at `acc` or `flags`, and a commit carries
along what it does not write. -/
theorem instructionsReadOnlyTheirRegisters : Obligations.InstructionsReadOnlyTheirRegisters := by
  intro x y s v f
  simp only [List.forall_mem_cons, List.not_mem_nil, false_implies, implies_true, and_true]
  refine ⟨rfl, ⟨?jpAcc, ?jb, ?haltAcc⟩, ⟨?_, ?_, ?_, ?_, ?jpFlags, ?haltFlags⟩, rfl⟩
  case jpAcc | jpFlags => exact withOperand_mapNext rfl fun _ => jumpVia_mapNext rfl rfl fun _ => rfl
  case jb =>
    refine whenExtControl_mapNext rfl rfl (withOperand_mapNext rfl fun ea => ?_)
    cases hB : flagB s.flags with
    | true => exact jumpVia_mapNext rfl rfl fun _ => rfl
    | false => rfl
  case haltAcc | haltFlags => exact whenExtControl_mapNext rfl rfl rfl
  all_goals exact withOperand_mapNext rfl fun _ => rfl

/-- Settles O33: CR leaves `B` set exactly when the accumulator is below the word, and JB tests it. -/
theorem compareThenJumpBelow : Obligations.CompareThenJumpBelow := by
  intro x y x' y' s t h hrange hfits
  obtain ⟨hext, ea, hea, rfl⟩ := execCr_next h
  have hB := flagB_cmpFlags s.acc (s.mem.readWord ea)
  rw [flagB_eq_borrowSet, readWord_eq_wordAt s.mem hea] at hB
  rw [readWord_eq_wordAt s.mem hea]
  by_cases hlt : s.acc.toNat < (wordAt s.mem (offset x y)).toNat
  · rw [if_pos hlt]
    exact execJb_taken_of_fits hext (hB.trans (decide_eq_true hlt)) hrange hfits
  · rw [if_neg hlt]
    exact execJb_not_taken hext (hB.trans (decide_eq_false hlt)) hrange

/-- Settles O36: the jump goes to the word, and the fetch there finds no slot. -/
theorem jumpPastSlotsFaultsAtNextFetch : Obligations.JumpPastSlotsFaultsAtNextFetch := by
  intro x y s hrange hlow hhigh i hi hjb
  have hexec : exec i s =
      .next { s with pc := BitVec.ofNat 16 (wordAt s.mem (offset x y)).toNat, status := .continued } := by
    simp only [List.mem_cons, List.not_mem_nil, or_false] at hi
    obtain rfl | rfl := hi
    · exact execJp_of_fits hrange hhigh
    · obtain ⟨hext, hB⟩ := hjb rfl
      exact execJb_taken_of_fits hext hB hrange hhigh
  have hpc : (BitVec.ofNat 16 (wordAt s.mem (offset x y)).toNat).toNat = (wordAt s.mem (offset x y)).toNat := by
    rw [BitVec.toNat_ofNat]
    omega
  exact ⟨_, hexec, hpc, step_of_pc_outside (hlow.trans_eq hpc.symm)⟩

/-- Settles O53, by induction on how the state was reached. -/
theorem reachableStatesMeetInvariant : Obligations.ReachableStatesMeetInvariant :=
  fun _ h => h.inv

/-- Settles O54: two clauses of the invariant. -/
theorem stackPointerAndIdleFlagsStayZero : Obligations.StackPointerAndIdleFlagsStayZero := by
  intro s h
  obtain ⟨_, _, hidle, hsp⟩ := h.inv
  exact ⟨hsp, hidle⟩

/-- Settles O55, by induction on the cells. -/
theorem canonicalMemoriesAreDeterminedByBytes : Obligations.CanonicalMemoriesAreDeterminedByBytes :=
  fun _ _ h h' hread => eq_of_readByte_eq h h' hread

/-- Settles O46: reset writes zeros, and slot 0 lies at the base of the Code region. -/
theorem resetRegistersAreZero : Obligations.ResetRegistersAreZero :=
  ⟨fun c image => ⟨construct_pc c image, construct_acc c image, construct_flags c image, construct_sp c image,
    fetchAddr_toNat (pc := 0#16) (by decide)⟩, rfl, rfl, rfl, rfl⟩

/-- Settles O52: the supplied image is laid out in canonical form, and the registers are zero. -/
theorem resetMeetsInvariant : Obligations.ResetMeetsInvariant :=
  ⟨reset_inv, construct_inv⟩

end Sys2Proof.Proofs

/-! ## The family `20_memory.md`

The fetch unit (R42, R43), the address translator (R38 to R41), the traffic of the memory port (R35, R36, R44, R45), and
a word placed from outside (log entry 10). -/

namespace Sys2Proof.Machine

open Sys2Proof.Said

/-! ### The fetch -/

theorem fetch_of_pc_outside {s : State} (h : 96 ≤ s.pc.toNat) : fetch s = .error (.programCounterOutOfBounds s.pc) :=
  if_pos h

/-- The fetch reads the image as it now stands (R43). -/
theorem fetch_of_pc_inside {s : State} (h : s.pc.toNat < 96) : fetch s = .ok (slotWord s) := by
  rw [slotWord_eq_readWord h]
  exact if_neg (Nat.not_le.2 h)

theorem step_of_decode {s : State} {i : Instr} (hpc : s.pc.toNat < 96) (hdec : decode (slotWord s) = .ok i) :
    step s = exec i s := by
  simp only [step, fetch_of_pc_inside hpc, hdec]

/-! ### The address translator -/

/-- The MAT gives exactly the address of the word that an operand pair in range names (R39, R40). -/
theorem translateOperands_eq_some_iff {x y : Byte} {ea : Addr} :
    translateOperands x y = some ea ↔ InRange x y ∧ ea.toNat = offset x y := by
  refine ⟨translateOperands_eq_some, fun ⟨hrange, hea⟩ => ?_⟩
  obtain ⟨ea', hea'⟩ := exists_translateOperands hrange
  rw [hea', BitVec.eq_of_toNat_eq (hea.trans (translateOperands_eq_some hea').2.symm)]

theorem translateOperands_eq_none {x y : Byte} (h : ¬ InRange x y) : translateOperands x y = none :=
  Option.eq_none_iff_forall_ne_some.2 fun _ hea => h (translateOperands_eq_some hea).1

/-- Word `k` of the image is word `k mod 16` of block `k / 16` (R4, R39). -/
theorem translateOperands_ofNat {k : Nat} (hk : k < 256) :
    translateOperands (BitVec.ofNat 8 (k / 16)) (BitVec.ofNat 8 (k % 16)) = some (BitVec.ofNat 10 (4 * k)) := by
  simp only [translateOperands_eq_some_iff, InRange, offset, BitVec.toNat_ofNat]
  omega

/-- The operand pair of a code slot translates to the slot's fetch address (R41). -/
theorem translateOperands_slotOperand {k : Slot} (hk : k.toNat < 96) :
    translateOperands (slotOperand k.toNat).1 (slotOperand k.toNat).2 = some (fetchAddr k) := by
  have hword := translateOperands_ofNat (k := 128 + k.toNat) (by omega)
  rwa [show (128 + k.toNat) / 16 = 8 + k.toNat / 16 by omega, show (128 + k.toNat) % 16 = k.toNat % 16 by omega,
    Nat.mul_add] at hword

/-- Every instruction with an operand pair checks it, once the gate of `EXT_CONTROL` lets it through (R38, R40). -/
theorem exec_of_translateOperands_none {i : Instr} {x y : Byte} {s : State} (hops : i.operands = some (x, y))
    (hgate : i.mnemonic.extControlled = true → s.config.extControl = true) (hnone : translateOperands x y = none) :
    exec i s = .fault (.operandOutOfRange s.pc (encode i)) := by
  cases i with
  | halt => cases hops
  | cr _ _ | jb _ _ => cases hops; exact (whenExtControl_true (hgate rfl)).trans (withOperand_none hnone)
  | _ => cases hops; exact withOperand_none hnone

/-! ### Stores to a code slot -/

/-- SR to the word of a code slot leaves the accumulator where that slot is fetched (R43). -/
theorem fetch_after_slot_store {k : Slot} {s t u : State} (hk : k.toNat < 96)
    (h : exec (.sr (slotOperand k.toNat).1 (slotOperand k.toNat).2) s = .next t) (hpc : u.pc = k) (hmem : u.mem = t.mem) :
    fetch u = .ok s.acc := by
  obtain ⟨ea, hea, rfl⟩ := execSr_next h
  obtain rfl : fetchAddr k = ea := Option.some.inj ((translateOperands_slotOperand hk).symm.trans hea)
  subst hpc
  rw [fetch_of_pc_inside hk, slotWord_eq_readWord hk, hmem, commit_mem, applyStore_some, readWord_writeWord_self]

/-! ### The memory port -/

theorem busTrace_of_pc_outside {s : State} (h : 96 ≤ s.pc.toNat) : busTrace s = [] := by
  simp only [busTrace, fetch_of_pc_outside h]

/-- A step that fetches reads its slot first, then makes the decoded instruction's data access, if any (R45). -/
theorem busTrace_of_pc_inside {s : State} (h : s.pc.toNat < 96) :
    busTrace s = readAccess s.mem (fetchAddr s.pc) :: ((decode (slotWord s)).toOption.bind (dataAccess s)).toList := by
  simp only [busTrace, fetch_of_pc_inside h]
  cases decode (slotWord s) <;> rfl

/-- The access an instruction makes at its operand word: SR writes the accumulator, every other one reads (R36). -/
def operandAccess (s : State) (i : Instr) (ea : Addr) : Access :=
  if i.mnemonic = .SR then { addr := ea, we := true, data := s.acc } else readAccess s.mem ea

@[simp] theorem operandAccess_addr (s : State) (i : Instr) (ea : Addr) : (operandAccess s i ea).addr = ea := by
  unfold operandAccess; split <;> rfl

theorem operandAccess_we (s : State) (i : Instr) (ea : Addr) :
    (operandAccess s i ea).we = true ↔ i.mnemonic = .SR := by
  unfold operandAccess; split <;> simp [readAccess, *]

theorem operandAccess_data (s : State) (i : Instr) (ea : Addr) :
    (operandAccess s i ea).data = if i.mnemonic = .SR then s.acc else s.mem.readWord ea := by
  unfold operandAccess; split <;> rfl

/-- A data access is made by an instruction with operands, at the address they translate to (R36, R38). -/
theorem dataAccess_eq_some {s : State} {i : Instr} {a : Access} (h : dataAccess s i = some a) :
    ∃ x y ea, i.operands = some (x, y) ∧ translateOperands x y = some ea ∧ a = operandAccess s i ea := by
  cases i with
  | halt => cases h
  | cr x y | jb x y =>
    obtain ⟨ea, hea, rfl⟩ := Option.map_eq_some_iff.1 (Option.ite_none_right_eq_some.1 h).2
    exact ⟨x, y, ea, rfl, hea, rfl⟩
  | lr x y | sr x y | ad x y | su x y | jp x y =>
    obtain ⟨ea, hea, rfl⟩ := Option.map_eq_some_iff.1 h
    exact ⟨x, y, ea, rfl, hea, rfl⟩

/-- Every instruction that completes has made its data access, but for HALT and a JB that is not taken (R36). -/
theorem dataAccess_of_next {i : Instr} {s t : State} (h : exec i s = .next t) (hhalt : i ≠ .halt)
    (hjb : i.mnemonic = .JB → borrowSet s.flags) : ∃ a, dataAccess s i = some a := by
  cases i with
  | lr x y => obtain ⟨ea, hea, _⟩ := execLr_next h; simp [dataAccess, hea]
  | sr x y => obtain ⟨ea, hea, _⟩ := execSr_next h; simp [dataAccess, hea]
  | ad x y => obtain ⟨ea, hea, _⟩ := execAd_next h; simp [dataAccess, hea]
  | su x y => obtain ⟨ea, hea, _⟩ := execSu_next h; simp [dataAccess, hea]
  | cr x y => obtain ⟨hext, ea, hea, _⟩ := execCr_next h; simp [dataAccess, hext, hea]
  | jp x y => obtain ⟨ea, _, hea, _⟩ := execJp_next h; simp [dataAccess, hea]
  | jb x y =>
    obtain ⟨hext, ea, hea, _⟩ := execJb_next h
    simp [dataAccess, hext, hea, flagB_eq_borrowSet, hjb rfl]
  | halt => exact absurd rfl hhalt

/-! ### A word placed from outside -/

theorem withFetchWord_pc_inside (s : State) (n w : Nat) : (s.withFetchWord n w).pc.toNat < 96 := by
  rw [withFetchWord_pc]
  split_ifs with h
  · decide
  · exact Nat.not_le.1 h

theorem withFetchWord_mem (s : State) (n w : Nat) :
    (s.withFetchWord n w).mem =
      s.mem.writeWord (fetchAddr (s.withFetchWord n w).pc) (BitVec.ofNat 32 (w % 2 ^ n)) := rfl

/-- The placed word is the one the next step fetches. -/
theorem slotWord_withFetchWord (s : State) (n w : Nat) :
    slotWord (s.withFetchWord n w) = BitVec.ofNat 32 (w % 2 ^ n) := by
  rw [slotWord_eq_readWord (withFetchWord_pc_inside s n w), withFetchWord_mem, readWord_writeWord_self]

/-- The decoder on a byte stream reads a word's four bytes as the decoder on the word does (R33, R49). -/
theorem decodeBytes_bytes (w : Word) (rest : List Byte) :
    decodeBytes (byte0 w :: byte1 w :: byte2 w :: byte3 w :: rest) = (decode w).map fun i => (i, rest) := by
  cases h : decode w <;> rw [decode] at h <;> simp only [decodeBytes, h, Except.map]

/-- The host's decoder is the machine's, on the word of the given bits. -/
theorem decodeTableWord_eq_decode (n w : Nat) :
    decodeTableWord n w = (decode (BitVec.ofNat 32 (w % 2 ^ n))).toOption := by
  simp only [decodeTableWord, decodeBytes_bytes]
  cases decode (BitVec.ofNat 32 (w % 2 ^ n)) <;> rfl

theorem decode_of_decodeTableWord {n w : Nat} {i : Instr} (h : decodeTableWord n w = some i) :
    decode (BitVec.ofNat 32 (w % 2 ^ n)) = .ok i := by
  rw [decodeTableWord_eq_decode] at h
  cases hdec : decode (BitVec.ofNat 32 (w % 2 ^ n)) with
  | ok j => rw [hdec] at h; exact congrArg _ (Option.some.inj h)
  | error r => rw [hdec] at h; cases h

end Sys2Proof.Machine

namespace Sys2Proof.Proofs

open Sys2Proof.Machine Sys2Proof.Said

/-- Settles O9: slot 95, the last, lies at byte 892. -/
theorem fetchReadsSlotOrFaults : Obligations.FetchReadsSlotOrFaults := by
  refine fun s => ⟨fun hout => ?_, fun hin => ?_⟩
  · exact ⟨fetch_of_pc_outside hout, step_of_pc_outside hout, rfl, busTrace_of_pc_outside hout⟩
  · have haddr := fetchAddr_toNat hin
    exact ⟨fetch_of_pc_inside hin, haddr, by omega, by omega⟩

/-- Settles O35: SR to a slot's operand pair writes the word that the slot's fetch reads. -/
theorem codeStoreSeenByNextFetch : Obligations.CodeStoreSeenByNextFetch := by
  refine ⟨fun s => fetch_of_pc_inside, fun k s t hk h u => fetch_after_slot_store hk h, fun s hpc hdec => ?_⟩
  have hexec : exec (.sr (slotOperand s.pc.toNat).1 (slotOperand s.pc.toNat).2) s = .next _ :=
    withOperand_some (translateOperands_slotOperand hpc)
  exact ⟨_, (step_of_decode hpc hdec).trans hexec, rfl, rfl, fetch_after_slot_store hpc hexec rfl rfl⟩

/-- Settles O38: the MAT's answer is the pair's offset, and a pair without one faults every instruction that reaches
it. -/
theorem translatorComputesWordOffset : Obligations.TranslatorComputesWordOffset := by
  refine fun x y => ⟨fun hrange => ?_, fun hout => ?_⟩
  · obtain ⟨ea, hea⟩ := exists_translateOperands hrange
    obtain ⟨⟨hx, hy⟩, hoffset⟩ := translateOperands_eq_some hea
    unfold offset at hoffset
    exact ⟨ea, hea, hoffset, by omega, by omega⟩
  · have hnone : translateOperands x y = none := translateOperands_eq_none (by omega)
    exact ⟨hnone, fun s i hops hgate => exec_of_translateOperands_none hops hgate hnone⟩

/-- Settles O39: two digits to the base 16 are determined by the number they write, and write every number below
256. -/
theorem operandPairsNameEachWordOnce : Obligations.OperandPairsNameEachWordOnce := by
  constructor
  · intro x y x' y' ea h h'
    obtain ⟨⟨hx, hy⟩, hea⟩ := translateOperands_eq_some h
    obtain ⟨⟨hx', hy'⟩, hea'⟩ := translateOperands_eq_some h'
    unfold offset at hea hea'
    exact ⟨BitVec.eq_of_toNat_eq (by omega), BitVec.eq_of_toNat_eq (by omega)⟩
  · intro ea hmod
    have hword := translateOperands_ofNat (k := ea.toNat / 4) (by omega)
    rw [Nat.mul_div_cancel' (Nat.dvd_of_mod_eq_zero hmod), BitVec.ofNat_toNat, BitVec.setWidth_eq] at hword
    exact ⟨_, _, hword⟩

/-- Settles O40: a region is a run of whole blocks, and `x` is the block number. -/
theorem operandPairRegions : Obligations.OperandPairRegions := by
  refine ⟨fun x y ea h => ?_, fun k hk => ?_⟩
  · obtain ⟨⟨hx, hy⟩, hea⟩ := translateOperands_eq_some h
    have hparams : ea.toNat < 1 * 64 ↔ x.toNat = 0 := by unfold offset at hea; omega
    have hdata : ea.toNat < (1 + 7) * 64 ↔ x.toNat ≤ 7 := by unfold offset at hea; omega
    have hcode : ea.toNat < (1 + 7 + 6) * 64 ↔ x.toNat ≤ 13 := by unfold offset at hea; omega
    simp only [regionOf, paramBlocks, dataBlocks, codeBlocks, blockBytes, hparams, hdata, hcode]
  · refine ⟨?_, ?_, translateOperands_slotOperand (Nat.lt_succ_of_le hk)⟩ <;>
      simp only [slotOperand, BitVec.toNat_ofNat] <;> omega

/-- Settles O41: the fetch is at `512 + 4 * pc` and the data access at a translated address. -/
theorem accessesAlignedAndInImage : Obligations.AccessesAlignedAndInImage := by
  intro s
  rcases Nat.lt_or_ge s.pc.toNat 96 with hin | hout
  · have hfetch := fetchAddr_toNat hin
    simp only [busTrace_of_pc_inside hin, List.forall_mem_cons, List.head?_cons, Option.some.injEq, forall_eq',
      Option.mem_toList, Option.bind_eq_some_iff]
    refine ⟨⟨?_, ?_⟩, ?_⟩
    · simp only [readAccess]; omega
    · rintro a ⟨i, -, ha⟩
      obtain ⟨x, y, ea, -, hea, rfl⟩ := dataAccess_eq_some ha
      obtain ⟨⟨hx, hy⟩, hoffset⟩ := translateOperands_eq_some hea
      rw [operandAccess_addr, hoffset, offset]
      omega
    · simp only [readAccess]; omega
  · simp [busTrace_of_pc_outside hout]

/-- Settles O42: the traffic after the fetch is the decoded instruction's one data access at its operand word. -/
theorem busCarriesFetchThenOneDataAccess : Obligations.BusCarriesFetchThenOneDataAccess := by
  intro s i hpc hdec
  refine ⟨(dataAccess s i).toList, ?_, Option.length_toList_le, ?_, ?_, ?_⟩
  · rw [slotWord_eq_readWord hpc] at hdec ⊢
    exact busTrace_of_decode hpc hdec
  · intro a ha
    obtain ⟨x, y, ea, hops, hea, rfl⟩ := dataAccess_eq_some (Option.mem_toList.1 ha)
    obtain ⟨hrange, hoffset⟩ := translateOperands_eq_some hea
    refine ⟨operandAccess_we s i ea, x, y, hops, hrange, (congrArg _ (operandAccess_addr s i ea)).trans hoffset, ?_⟩
    rw [operandAccess_data, readWord_eq_wordAt s.mem hea]
  · rintro rfl
    rfl
  · intro t hstep hjb hhalt
    obtain ⟨a, ha⟩ := dataAccess_of_next ((step_of_decode hpc hdec).symm.trans hstep) hhalt hjb
    rw [ha]
    rfl

/-- Settles O44: word `k` is at `(k / 16, k mod 16)`, and neither instruction looks at the region. -/
theorem everyWordIsReadableAndWritable : Obligations.EveryWordIsReadableAndWritable := by
  intro k hk
  have hea := translateOperands_ofNat hk
  have hword : ∀ m : Memory, wordAt m (4 * k) = m.readWord (BitVec.ofNat 10 (4 * k)) := by
    intro m
    rw [readWord_eq_wordAt m hea, ← (translateOperands_eq_some hea).2, BitVec.toNat_ofNat, Nat.mod_eq_of_lt (by omega)]
  exact ⟨_, _, fun s => ⟨⟨_, withOperand_some hea, (hword _).trans (readWord_writeWord_self s.mem _ s.acc)⟩,
    ⟨_, withOperand_some hea, (hword s.mem).symm⟩⟩⟩

/-- Settles O50: the placed word is the one fetched, and one word write is all the image sees. -/
theorem placedWordIsRunNext : Obligations.PlacedWordIsRunNext := by
  intro s w i _ hdec
  refine ⟨?_, fun hpc => ?_, fun a ha => ?_⟩
  · refine step_of_decode (withFetchWord_pc_inside s 32 w) ?_
    rw [slotWord_withFetchWord, decode_of_decodeTableWord hdec]
  · rw [withFetchWord_pc, if_neg (Nat.not_le.2 hpc)]
  · rw [withFetchWord_mem, readByte_writeWord_outside _ _ _ ha]

end Sys2Proof.Proofs

/-! ## The family `30_encoding.md`

The decoder and the encoder are inverse to each other (R53, R58), a word fits a row of the opcode map exactly when it
decodes to that row's mnemonic (R53, R56), which steps raise `UnimplementedInstruction` (R57), and the assembly text of
an instruction (R60). -/

namespace Sys2Proof

/-! ### Decoder and encoder -/

@[simp] theorem decode_wordOfBytes (b0 b1 b2 b3 : Byte) : decode (wordOfBytes b0 b1 b2 b3) = decodeFour b0 b1 b2 b3 := by
  simp only [decode, byte0_wordOfBytes, byte1_wordOfBytes, byte2_wordOfBytes, byte3_wordOfBytes]

theorem decode_encode (i : Instr) : decode (encode i) = .ok i := by
  cases i <;> exact decode_wordOfBytes _ _ _ _

/-- The decoder's answer fixes all four bytes of the word (R58). -/
theorem encode_of_decode {w : Word} {i : Instr} (h : decode w = .ok i) : encode i = w := by
  rw [← wordOfBytes_bytes w]
  obtain ⟨h0, h1, rfl⟩ | ⟨h0, h1, rfl⟩ | ⟨h0, h1, rfl⟩ | ⟨h0, h1, rfl⟩ | ⟨h0, h1, rfl⟩ | ⟨h0, h1, rfl⟩ |
    ⟨h0, h1, rfl⟩ | ⟨h0, h1, h2, h3, rfl⟩ := decodeFour_ok h
  case _ | _ | _ | _ | _ | _ | _ => rw [h0, h1]; rfl
  case _ => rw [h0, h1, h2, h3]; rfl

/-- The decoder rejects a word only as `ILLEGAL`, with the word (R56). -/
theorem illegal_of_decode_error {w : Word} {r : DecodeReject} (h : decode w = .error r) : r = .illegal w := by
  rw [← wordOfBytes_bytes w]
  unfold decode decodeFour at h
  split_ifs at h
  cases h
  rfl

/-- The operand bytes stand in the low half of an instruction's word (R54, R60). -/
theorem operandBytes_encode {i : Instr} {x y : Byte} (h : i.operands = some (x, y)) :
    byte2 (encode i) = x ∧ byte3 (encode i) = y := by
  cases i with
  | halt => cases h
  | _ => cases h; exact ⟨byte2_wordOfBytes _ _ _ _, byte3_wordOfBytes _ _ _ _⟩

/-- No mnemonic but HALT begins with 'H'. -/
theorem eq_halt_of_byte0_encode {i : Instr} (h : byte0 (encode i) = 0x48#8) : i = .halt := by
  cases i with
  | halt => rfl
  | _ => rw [encode, byte0_wordOfBytes] at h; exact absurd h (by decide)

/-! ### The rows of the opcode map -/

/-- Every instruction's word fits a row of its mnemonic (R53). -/
theorem rowFit (i : Instr) : Laws.RowFit.Statement i := by
  cases i with
  | lr x y => exact Laws.RowFit.lr x y
  | sr x y => exact Laws.RowFit.sr x y
  | ad x y => exact Laws.RowFit.ad x y
  | su x y => exact Laws.RowFit.su x y
  | cr x y => exact Laws.RowFit.cr x y
  | jp x y => exact Laws.RowFit.jp x y
  | jb x y => exact Laws.RowFit.jb x y
  | halt => exact Laws.RowFit.halt

/-- A mnemonic has one row in the opcode map. -/
theorem row_eq_of_mnemonic_eq : ∀ r ∈ opcodeMap, ∀ r' ∈ opcodeMap, r.mnemonic = r'.mnemonic → r = r' := by decide

/-- A row as the table of R53 writes it: mnemonic, match, mask. -/
def OpcodeRow.entry (r : OpcodeRow) : Mnemonic × Word × Word := (r.mnemonic, r.matchBits, r.mask)

/-- A word that fits a row names that row's operation (R53): the row's match and mask decide every test of `opOf`. -/
theorem opOf_of_fits {r : OpcodeRow} {w : Word} (hr : r ∈ opcodeMap) (h : r.fits w = true) :
    Said.opOf w = some r.mnemonic := by
  simp only [opcodeMap, List.mem_cons, List.not_mem_nil, or_false] at hr
  rcases hr with rfl | rfl | rfl | rfl | rfl | rfl | rfl | rfl
  case _ | _ | _ | _ | _ | _ | _ =>
    have hmask : w &&& 0xFFFF0000#32 = _ := eq_of_beq h
    simp [Said.opOf, hmask]
  case _ =>
    have hall : w &&& 0xFFFFFFFF#32 = w := BitVec.and_allOnes (w := 32)
    have hw : w = 0x48414C54#32 := hall.symm.trans (eq_of_beq h)
    rw [hw]; rfl

theorem opOf_eq_some_iff {w : Word} {m : Mnemonic} :
    Said.opOf w = some m ↔ ∃ i, decode w = .ok i ∧ i.mnemonic = m := by
  rw [Machine.opOf_eq_decode]
  cases decode w <;> simp [Except.toOption]

/-- A word fits a row of the opcode map exactly when it decodes to the row's mnemonic (R53). -/
theorem fits_iff_decode {r : OpcodeRow} {w : Word} (hr : r ∈ opcodeMap) :
    r.fits w = true ↔ ∃ i, decode w = .ok i ∧ i.mnemonic = r.mnemonic := by
  refine ⟨fun h => opOf_eq_some_iff.1 (opOf_of_fits hr h), ?_⟩
  rintro ⟨i, hdec, hm⟩
  obtain ⟨r', hr', hm', hfit⟩ := rowFit i
  rwa [encode_of_decode hdec, row_eq_of_mnemonic_eq r' hr' r hr (hm'.trans hm)] at hfit

/-- A word that fits no row is `ILLEGAL` (R56). -/
theorem decode_of_fits_none {w : Word} (h : ∀ r ∈ opcodeMap, r.fits w = false) : decode w = .error (.illegal w) := by
  cases hdec : decode w with
  | ok i =>
    obtain ⟨r, hr, hm, _⟩ := rowFit i
    exact absurd ((fits_iff_decode hr).2 ⟨i, hdec, hm.symm⟩) (by simp [h r hr])
  | error r => rw [illegal_of_decode_error hdec]

/-- Among the words that begin 'H' 'A', only HALT fits a row (R56). -/
theorem eq_haltWord_of_fits {r : OpcodeRow} {w : Word} (hr : r ∈ opcodeMap) (hHA : w.extractLsb' 16 16 = 0x4841#16)
    (h : r.fits w = true) : w = 0x48414C54#32 := by
  obtain ⟨i, hdec, _⟩ := (fits_iff_decode hr).1 h
  have hH : byte0 w = (w.extractLsb' 16 16).extractLsb' 8 8 := by
    ext k hk
    simp only [byte0, BitVec.getElem_extractLsb', BitVec.getLsbD_extractLsb']
    grind
  rw [hHA, ← encode_of_decode hdec] at hH
  rw [← encode_of_decode hdec, eq_halt_of_byte0_encode hH]
  rfl

end Sys2Proof

namespace Sys2Proof.Machine

open Sys2Proof.Said

/-! ### The unimplemented fault -/

theorem step_of_decode_error {s : State} {r : DecodeReject} (hpc : s.pc.toNat < 96)
    (hdec : decode (slotWord s) = .error r) : step s = .fault (.unrecognizedInstruction s.pc (slotWord s)) := by
  simp only [step, fetch_of_pc_inside hpc, hdec]

/-- With the gate shut an instruction behind it faults, whatever its operand bytes (R57). -/
theorem exec_of_gate_shut {i : Instr} {s : State} (hgate : i.mnemonic.extControlled = true)
    (hext : s.config.extControl = false) : exec i s = .fault (.unimplementedInstruction s.pc (encode i)) := by
  cases i with
  | cr _ _ | jb _ _ | halt => exact whenExtControl_false hext
  | _ => cases hgate

theorem withOperand_ne_unimplemented {i : Instr} {x y : Byte} {s : State} {pc : Slot} {raw : Word}
    {body : Addr → Host.Outcome State Fault Refusal} (h : ∀ ea, body ea ≠ .fault (.unimplementedInstruction pc raw)) :
    withOperand i x y s body ≠ .fault (.unimplementedInstruction pc raw) := by
  cases hea : translateOperands x y with
  | none => rw [withOperand_none hea]; simp
  | some ea => rw [withOperand_some hea]; exact h ea

theorem jumpVia_ne_unimplemented {i : Instr} {ea : Addr} {s : State} {pc : Slot} {raw : Word} :
    jumpVia i ea s ≠ .fault (.unimplementedInstruction pc raw) := by
  unfold jumpVia
  split <;> simp [raiseFault]

/-- Where the body raises no unimplemented fault, only a shut gate raises it. -/
theorem whenExtControl_unimplemented {i : Instr} {s : State} {pc : Slot} {raw : Word}
    {body : Host.Outcome State Fault Refusal} (h : whenExtControl i s body = .fault (.unimplementedInstruction pc raw))
    (hbody : body ≠ .fault (.unimplementedInstruction pc raw)) :
    s.config.extControl = false ∧ pc = s.pc ∧ raw = encode i := by
  cases hext : s.config.extControl with
  | true => rw [whenExtControl_true hext] at h; exact absurd h hbody
  | false => rw [whenExtControl_false hext] at h; cases h; exact ⟨rfl, rfl, rfl⟩

/-- An instruction raises the unimplemented fault only at the shut gate (R57). -/
theorem exec_unimplemented {i : Instr} {s : State} {pc : Slot} {raw : Word}
    (h : exec i s = .fault (.unimplementedInstruction pc raw)) :
    i.mnemonic.extControlled = true ∧ s.config.extControl = false ∧ pc = s.pc ∧ raw = encode i := by
  cases i with
  | lr _ _ | sr _ _ | ad _ _ | su _ _ => exact absurd h (withOperand_ne_unimplemented fun _ => nofun)
  | jp _ _ => exact absurd h (withOperand_ne_unimplemented fun _ => jumpVia_ne_unimplemented)
  | cr _ _ => exact ⟨rfl, whenExtControl_unimplemented h (withOperand_ne_unimplemented fun _ => nofun)⟩
  | jb _ _ =>
    refine ⟨rfl, whenExtControl_unimplemented h (withOperand_ne_unimplemented fun ea => ?_)⟩
    split
    · exact jumpVia_ne_unimplemented
    · nofun
  | halt => exact ⟨rfl, whenExtControl_unimplemented h nofun⟩

/-- A step raises the unimplemented fault only by an instruction it fetched and decoded. -/
theorem step_unimplemented {s : State} {pc : Slot} {raw : Word}
    (h : step s = .fault (.unimplementedInstruction pc raw)) :
    s.pc.toNat < 96 ∧ ∃ i, decode (slotWord s) = .ok i ∧ exec i s = .fault (.unimplementedInstruction pc raw) := by
  by_cases hpc : 96 ≤ s.pc.toNat
  · rw [step_of_pc_outside hpc] at h; cases h
  have hlt := Nat.not_le.1 hpc
  cases hdec : decode (slotWord s) with
  | error r => rw [step_of_decode_error hlt hdec] at h; cases h
  | ok i => exact ⟨hlt, i, rfl, (step_of_decode hlt hdec).symm.trans h⟩

/-! ### Assembly text -/

/-- A run of non-blank characters is read into the current token. -/
theorem tokensFrom_append {t : List Char} (ht : ∀ c ∈ t, isBlank c = false) (cur rest : List Char) :
    tokensFrom cur (t ++ rest) = tokensFrom (t.reverse ++ cur) rest := by
  induction t generalizing cur with
  | nil => rfl
  | cons c t ih =>
    obtain ⟨hc, ht⟩ := List.forall_mem_cons.1 ht
    simp [tokensFrom, hc, ih ht]

/-- The text of a token: at least one character, none of them blank. -/
def IsToken (t : List Char) : Prop := t ≠ [] ∧ ∀ c ∈ t, isBlank c = false

theorem tokensFrom_token {t : List Char} (ht : IsToken t) : tokensFrom [] t = [t] := by
  have h := tokensFrom_append ht.2 [] []
  simpa [tokensFrom, ht.1] using h

theorem tokensFrom_token_blank {t : List Char} (ht : IsToken t) (rest : List Char) :
    tokensFrom [] (t ++ ' ' :: rest) = t :: tokensFrom [] rest := by
  have h := tokensFrom_append ht.2 [] (' ' :: rest)
  simpa [tokensFrom, isBlank, ht.1] using h

theorem isToken_mnemonicLetters (m : Mnemonic) : IsToken (mnemonicLetters m) := by
  cases m <;> simp [IsToken, mnemonicLetters, isBlank]

/-- The decimal digits of a number below 1000, the highest first, with no leading zero. -/
def decimalDigits (n : Nat) : List Nat :=
  if n < 10 then [n] else if n < 100 then [n / 10, n % 10] else [n / 100, n / 10 % 10, n % 10]

/-- A byte's text is its value's decimal digits. -/
theorem renderByte_eq (b : Byte) : renderByte b = (decimalDigits b.toNat).map digitChar := by
  simp only [renderByte, decimalDigits]
  split_ifs <;> rfl

theorem decimalDigits_lt {n : Nat} (hn : n < 1000) : ∀ d ∈ decimalDigits n, d < 10 := by
  unfold decimalDigits
  split_ifs <;> simp <;> omega

theorem decimalDigits_ne_nil (n : Nat) : decimalDigits n ≠ [] := by
  unfold decimalDigits
  split_ifs <;> simp

/-- What the digits write is the number. -/
theorem foldl_decimalDigits (n : Nat) : (decimalDigits n).foldl (fun acc d => acc * 10 + d) 0 = n := by
  unfold decimalDigits
  split_ifs <;> simp <;> omega

theorem digitValue_digitChar : ∀ d < 10, digitValue 10 (digitChar d) = some d := by decide

theorem isBlank_digitChar : ∀ d < 10, isBlank (digitChar d) = false := by decide

theorem digitChar_ne_x : ∀ d < 10, digitChar d ≠ 'x' := by decide

theorem digitsValue_digits {ds : List Nat} (hds : ∀ d ∈ ds, d < 10) (acc : Nat) :
    digitsValue 10 acc (ds.map digitChar) = some (ds.foldl (fun acc d => acc * 10 + d) acc) := by
  induction ds generalizing acc with
  | nil => rfl
  | cons d ds ih =>
    obtain ⟨hd, hds⟩ := List.forall_mem_cons.1 hds
    simp [digitsValue, digitValue_digitChar d hd, ih hds]

/-- Text without an `x` is read in decimal (R60). -/
theorem parseNumber_decimal {t : List Char} (hne : t ≠ []) (hx : 'x' ∉ t) : parseNumber t = digitsValue 10 0 t := by
  unfold parseNumber
  split <;> simp_all

theorem parseOperand_renderByte (b : Byte) : parseOperand (renderByte b) = some b := by
  have hlt := b.isLt
  have hds := decimalDigits_lt (n := b.toNat) (by omega)
  have hx : 'x' ∉ (decimalDigits b.toNat).map digitChar := by
    rw [List.mem_map]
    rintro ⟨d, hd, hdx⟩
    exact digitChar_ne_x d (hds d hd) hdx
  have hnumber : parseNumber (renderByte b) = some b.toNat := by
    rw [renderByte_eq, parseNumber_decimal (by simpa using decimalDigits_ne_nil _) hx, digitsValue_digits hds,
      foldl_decimalDigits]
  simp [parseOperand, hnumber, Nat.le_of_lt_succ hlt]

theorem isToken_renderByte (b : Byte) : IsToken (renderByte b) := by
  have hlt := b.isLt
  rw [renderByte_eq]
  refine ⟨by simpa using decimalDigits_ne_nil _, fun c hc => ?_⟩
  obtain ⟨d, hd, rfl⟩ := List.mem_map.1 hc
  exact isBlank_digitChar d (decimalDigits_lt (by omega) d hd)

theorem tokensFrom_renderInstr {i : Instr} {x y : Byte} (hops : i.operands = some (x, y)) :
    tokensFrom [] (renderInstr i) = [mnemonicLetters i.mnemonic, renderByte x, renderByte y] := by
  simp only [renderInstr, hops, List.append_assoc, List.cons_append]
  rw [tokensFrom_token_blank (isToken_mnemonicLetters _), tokensFrom_token_blank (isToken_renderByte x),
    tokensFrom_token (isToken_renderByte y)]

/-- The letters of a format `O` mnemonic name its instruction (R53, R60). -/
theorem mnemonicForm_mnemonicLetters {i : Instr} {x y : Byte} (hops : i.operands = some (x, y)) :
    ∃ form, mnemonicForm (mnemonicLetters i.mnemonic) = some form ∧ form x y = i := by
  cases i with
  | halt => cases hops
  | _ => cases hops; exact ⟨_, rfl, rfl⟩

theorem parseInstr_renderInstr {i : Instr} {x y : Byte} (hops : i.operands = some (x, y)) :
    parseInstr (renderInstr i) = some i := by
  obtain ⟨form, hform, hi⟩ := mnemonicForm_mnemonicLetters hops
  simp only [parseInstr, tokensFrom_renderInstr hops, hform, parseOperand_renderByte, Option.bind_some, Option.map_some,
    hi]

/-- A line that is not two tokens is no `.word`, so it assembles as an instruction (R60). -/
theorem assemble_of_length_ne_two {line : List Char} (h : (tokensFrom [] line).length ≠ 2) :
    assemble line = (parseInstr line).map encode := by
  unfold assemble
  split
  · simp_all
  · rfl

end Sys2Proof.Machine

namespace Sys2Proof.Proofs

open Sys2Proof.Machine Sys2Proof.Said

/-- Settles O1: an instruction's word begins with the letters that the decoder's match takes to that instruction. -/
theorem decodeAfterEncodeIsIdentity : Obligations.DecodeAfterEncodeIsIdentity := decode_encode

/-- Settles O2: each answer of the decoder fixes the four bytes it was given. -/
theorem decodedWordReencodesToItself : Obligations.DecodedWordReencodesToItself := fun _ _ => encode_of_decode

/-- Settles O3: a word fits the rows of the mnemonic it decodes to, and a mnemonic has one row. -/
theorem decoderFollowsOpcodeMap : Obligations.DecoderFollowsOpcodeMap := by
  intro w
  refine ⟨fun m => ?_, fun r hr r' hr' h h' => ?_⟩
  · show _ ↔ ∃ p ∈ opcodeMap.map OpcodeRow.entry, p.1 = m ∧ w &&& p.2.2 = p.2.1
    constructor
    · rintro ⟨i, hdec, rfl⟩
      obtain ⟨r, hr, hm, hfit⟩ := rowFit i
      rw [encode_of_decode hdec] at hfit
      exact ⟨r.entry, List.mem_map_of_mem hr, hm, eq_of_beq hfit⟩
    · rintro ⟨p, hp, rfl, hfit⟩
      obtain ⟨r, hr, rfl⟩ := List.mem_map.1 hp
      exact (fits_iff_decode hr).1 (beq_iff_eq.2 hfit)
  · have hop := (opOf_of_fits hr h).symm.trans (opOf_of_fits hr' h')
    exact row_eq_of_mnemonic_eq r hr r' hr' (Option.some.inj hop)

/-- Settles O5: the word is the encoding of what it decodes to, and the operand bytes are its low half. -/
theorem operandBytesPassUnchanged : Obligations.OperandBytesPassUnchanged := by
  refine ⟨fun w i x y hdec hops => ?_, fun x y => ?_⟩
  · obtain ⟨hx, hy⟩ := operandBytes_encode hops
    rw [encode_of_decode hdec] at hx hy
    exact ⟨hx.symm, hy.symm⟩
  · simp only [List.forall_mem_cons]
    exact ⟨decode_encode (.lr x y), decode_encode (.sr x y), decode_encode (.ad x y), decode_encode (.su x y),
      decode_encode (.cr x y), decode_encode (.jp x y), decode_encode (.jb x y), List.forall_mem_nil _⟩

/-- Settles O6: a word the decoder accepts fits its instruction's row, and one that begins 'H' 'A' is HALT's. -/
theorem unmatchedWordRaisesUnrecognized : Obligations.UnmatchedWordRaisesUnrecognized := by
  refine ⟨fun s hpc hnone => ?_, fun w hHA hne r hr => ?_, by decide⟩
  · have hdec := decode_of_fits_none hnone
    exact ⟨hdec, step_of_decode_error hpc hdec⟩
  · exact Bool.eq_false_iff.2 fun hfit => hne (eq_haltWord_of_fits hr hHA hfit)

/-- Settles O7: the rendering is the mnemonic's token and two numbers, each of which reads back. -/
theorem renderedInstructionAssembles : Obligations.RenderedInstructionAssembles := by
  intro i
  cases hops : i.operands with
  | none =>
    cases i with
    | halt => decide
    | _ => cases hops
  | some p =>
    obtain ⟨x, y⟩ := p
    rw [assemble_of_length_ne_two (by simp [tokensFrom_renderInstr hops]), parseInstr_renderInstr hops, Option.map_some]

/-- Settles O24: the gate of `EXT_CONTROL` stands before the operand check, and no other operation raises its fault. -/
theorem controlRowsUnimplementedByDefault : Obligations.ControlRowsUnimplementedByDefault := by
  refine ⟨fun s m hext hpc hop hgate => ?_, fun s pc raw h => ?_⟩
  · obtain ⟨i, hdec, rfl⟩ := opOf_eq_some_iff.1 hop
    refine ⟨⟨i, hdec, rfl⟩, ?_⟩
    rw [step_of_decode hpc hdec, exec_of_gate_shut hgate hext, encode_of_decode hdec]
  · obtain ⟨hpc, i, hdec, hexec⟩ := step_unimplemented h
    obtain ⟨hgate, hext, rfl, rfl⟩ := exec_unimplemented hexec
    rw [encode_of_decode hdec]
    exact ⟨hext, hpc, rfl, rfl, i.mnemonic, opOf_eq_some_iff.2 ⟨i, hdec, rfl⟩, hgate⟩

/-- Settles O4: eight encodings, and two words that fit no row. -/
theorem tableWordsDecodeAsWritten : Obligations.TableWordsDecodeAsWritten :=
  ⟨decode_encode (.lr 0#8 1#8), decode_encode (.sr 8#8 5#8), decode_encode (.ad 0#8 1#8), decode_encode (.su 0#8 3#8),
    decode_encode (.cr 200#8 200#8), decode_encode (.jp 16#8 0#8), decode_encode (.jb 0#8 16#8), decode_encode .halt,
    decode_of_fits_none (by decide), decode_of_fits_none (by decide)⟩

end Sys2Proof.Proofs

/-! ## The family `40_cycle.md`

The pseudocode `advance()` of R63 beside the step, what a step does not depend on (R71), and advances that repeat (R69,
R70). -/

namespace Sys2Proof.Machine

open Sys2Proof.Said

/-! ### The pseudocode's arithmetic -/

theorem add_eq_ofNat (a w : Word) : a + w = BitVec.ofNat 32 ((a.toNat + w.toNat) % 2 ^ 32) :=
  BitVec.eq_of_toNat_eq (by simp)

theorem sub_eq_ofNat (a w : Word) : a - w = BitVec.ofNat 32 ((a.toNat + (2 ^ 32 - w.toNat)) % 2 ^ 32) :=
  BitVec.eq_of_toNat_eq (by simp [BitVec.toNat_sub, Nat.add_comm])

/-- The byte whose bits 2, 1 and 0 are given is the sum of their weights (R20). -/
theorem flagBits_eq_ofNat : ∀ sign borrow zero : Bool,
    0#5 ++ BitVec.ofBool sign ++ BitVec.ofBool borrow ++ BitVec.ofBool zero =
      BitVec.ofNat 8 ((if zero then 1 else 0) + (if borrow then 2 else 0) + (if sign then 4 else 0)) := by decide

/-- The flags CR computes are those the spec states as numbers (R77). -/
theorem cmpFlags_eq_compareFlags (acc w : Word) : cmpFlags acc w = compareFlags acc w := by
  have hS : (acc - w).getLsbD 31 = decide (2 ^ 31 ≤ (acc.toNat + (2 ^ 32 - w.toNat)) % 2 ^ 32) := by
    rw [← BitVec.msb_eq_getLsbD_last, BitVec.msb_eq_decide, sub_eq_ofNat]
    simp
  have hB : BitVec.ult acc w = decide (acc.toNat < w.toNat) := rfl
  have hZ : (acc - w == 0#32) = decide (acc = w) := by
    rw [beq_eq_decide]
    simp [BitVec.sub_eq_iff_eq_add]
  simp only [cmpFlags, compareFlags, flagBits_eq_ofNat, hS, hB, hZ, decide_eq_true_eq]

/-- A jump is the pseudocode's narrowing of the operand word (R79). -/
theorem jumpVia_eq_jumpOrOverflow (i : Instr) (ea : Addr) (s : State) :
    jumpVia i ea s = jumpOrOverflow s (encode i) (s.mem.readWord ea) := by
  unfold jumpOrOverflow
  split_ifs with h
  · have hnone : jumpTarget (s.mem.readWord ea) = none := if_pos h
    simp only [jumpVia, hnone, raiseFault]
  · exact jumpVia_of_fits (Nat.not_lt.1 h)

/-! ### Instructions with both operand bytes in range -/

theorem withOperand_of_inRange {i : Instr} {x y : Byte} {s : State} {body : Addr → Host.Outcome State Fault Refusal}
    {o : Host.Outcome State Fault Refusal} (h : InRange x y) (hbody : ∀ ea, ea.toNat = offset x y → body ea = o) :
    withOperand i x y s body = o := by
  obtain ⟨ea, hea⟩ := exists_translateOperands h
  rw [withOperand_some hea, hbody ea (translateOperands_eq_some hea).2]

theorem execLr_of_inRange {x y : Byte} {s : State} (h : InRange x y) :
    execLr x y s = .next { sequential s with acc := wordAt s.mem (offset x y) } :=
  withOperand_of_inRange h fun _ hea => by rw [← hea]; rfl

theorem execSr_of_inRange {x y : Byte} {s : State} (h : InRange x y) :
    execSr x y s = .next { sequential s with mem := storeAt s.mem (offset x y) s.acc } :=
  withOperand_of_inRange h fun _ hea => by rw [← hea]; rfl

theorem execAd_of_inRange {x y : Byte} {s : State} (h : InRange x y) :
    execAd x y s = .next { sequential s with
      acc := BitVec.ofNat 32 ((s.acc.toNat + (wordAt s.mem (offset x y)).toNat) % 2 ^ 32) } :=
  withOperand_of_inRange h fun _ hea => by rw [← add_eq_ofNat, ← hea]; rfl

theorem execSu_of_inRange {x y : Byte} {s : State} (h : InRange x y) :
    execSu x y s = .next { sequential s with
      acc := BitVec.ofNat 32 ((s.acc.toNat + (2 ^ 32 - (wordAt s.mem (offset x y)).toNat)) % 2 ^ 32) } :=
  withOperand_of_inRange h fun _ hea => by rw [← sub_eq_ofNat, ← hea]; rfl

theorem execCr_of_inRange {x y : Byte} {s : State} (hext : s.config.extControl = true) (h : InRange x y) :
    execCr x y s = .next { sequential s with flags := compareFlags s.acc (wordAt s.mem (offset x y)) } :=
  (whenExtControl_true hext).trans <|
    withOperand_of_inRange h fun _ hea => by rw [← cmpFlags_eq_compareFlags, ← hea]; rfl

theorem execJp_of_inRange {x y : Byte} {s : State} (h : InRange x y) :
    execJp x y s = jumpOrOverflow s (encode (.jp x y)) (wordAt s.mem (offset x y)) :=
  withOperand_of_inRange h fun _ hea => by rw [jumpVia_eq_jumpOrOverflow, ← hea]; rfl

theorem execJb_of_inRange {x y : Byte} {s : State} (hext : s.config.extControl = true) (h : InRange x y) :
    execJb x y s =
      if borrowSet s.flags then jumpOrOverflow s (encode (.jb x y)) (wordAt s.mem (offset x y))
      else .next (sequential s) :=
  (whenExtControl_true hext).trans <|
    withOperand_of_inRange h fun _ hea => by rw [flagB_eq_borrowSet, jumpVia_eq_jumpOrOverflow, ← hea]; rfl

/-! ### The pseudocode, branch by branch -/

/-- The pseudocode shuts the gate of `EXT_CONTROL` on the controlled rows (R7, R57). -/
theorem gateShut_iff (m : Mnemonic) (ext : Bool) :
    (m = .CR ∨ m = .JB ∨ m = .HALT) ∧ ext = false ↔ ¬(m.extControlled = true → ext = true) := by
  cases m <;> cases ext <;> decide

/-- Only HALT has no operand pair (R51). -/
theorem mnemonic_ne_halt {i : Instr} {x y : Byte} (hops : i.operands = some (x, y)) : i.mnemonic ≠ .HALT := by
  cases i with
  | halt => cases hops
  | _ => nofun

theorem pseudoAdvance_of_pc_outside {s : State} (h : 96 ≤ s.pc.toNat) :
    pseudoAdvance s = .fault (.programCounterOutOfBounds s.pc) := if_pos h

theorem pseudoAdvance_of_decode_error {s : State} {r : DecodeReject} (hpc : s.pc.toNat < 96)
    (hdec : decode (slotWord s) = .error r) :
    pseudoAdvance s = .fault (.unrecognizedInstruction s.pc (slotWord s)) := by
  have hop : opOf (slotWord s) = none := by rw [opOf_eq_decode, hdec]; rfl
  simp only [pseudoAdvance, if_neg (Nat.not_le.2 hpc), hop]

section

variable {s : State} {i : Instr} (hpc : s.pc.toNat < 96) (hdec : decode (slotWord s) = .ok i)

include hpc hdec

theorem pseudoAdvance_of_gate_shut (hgate : ¬(i.mnemonic.extControlled = true → s.config.extControl = true)) :
    pseudoAdvance s = .fault (.unimplementedInstruction s.pc (encode i)) := by
  have hop : opOf (slotWord s) = some i.mnemonic := opOf_eq_some_iff.2 ⟨i, hdec, rfl⟩
  simp only [pseudoAdvance, if_neg (Nat.not_le.2 hpc), hop, if_pos ((gateShut_iff _ _).2 hgate), encode_of_decode hdec]

/-- Past the gate of `EXT_CONTROL` the pseudocode is `exec`: HALT at once, every other instruction after the range
check of its operand bytes (R40). -/
theorem pseudoAdvance_of_gate_open (hgate : i.mnemonic.extControlled = true → s.config.extControl = true) :
    pseudoAdvance s = exec i s := by
  have hop : opOf (slotWord s) = some i.mnemonic := opOf_eq_some_iff.2 ⟨i, hdec, rfl⟩
  have hopen := mt (gateShut_iff i.mnemonic s.config.extControl).1 (not_not_intro hgate)
  simp only [pseudoAdvance, if_neg (Nat.not_le.2 hpc), hop, if_neg hopen]
  cases hops : i.operands with
  | none =>
    cases i with
    | halt => exact (whenExtControl_true (hgate rfl)).symm
    | _ => cases hops
  | some p =>
    obtain ⟨x, y⟩ := p
    obtain ⟨hx, hy⟩ := operandBytes_encode hops
    rw [encode_of_decode hdec] at hx hy
    have hoffset : 64 * x.toNat + 4 * y.toNat = offset x y := by unfold offset; omega
    rw [if_neg (mnemonic_ne_halt hops), show (slotWord s).extractLsb' 8 8 = x from hx,
      show (slotWord s).extractLsb' 0 8 = y from hy, hoffset, ← encode_of_decode hdec]
    by_cases hrange : InRange x y
    · rw [if_neg (by omega)]
      cases i with
      | lr _ _ => cases hops; exact (execLr_of_inRange hrange).symm
      | sr _ _ => cases hops; exact (execSr_of_inRange hrange).symm
      | ad _ _ => cases hops; exact (execAd_of_inRange hrange).symm
      | su _ _ => cases hops; exact (execSu_of_inRange hrange).symm
      | cr _ _ => cases hops; exact (execCr_of_inRange (hgate rfl) hrange).symm
      | jp _ _ => cases hops; exact (execJp_of_inRange hrange).symm
      | jb _ _ => cases hops; exact (execJb_of_inRange (hgate rfl) hrange).symm
      | halt => cases hops
    · rw [if_pos (by omega), exec_of_translateOperands_none hops hgate (translateOperands_eq_none hrange)]

end

/-! ### Steps that repeat -/

/-- No operation looks at `sp` or `status`; a commit carries `sp` along and writes `status` (R67, R71). -/
theorem exec_ignores_sp_status (i : Instr) (s : State) (v : Byte) (st : StepStatus) :
    exec i { s with sp := v, status := st } = mapNext (fun t => { t with sp := v }) (exec i s) := by
  cases i with
  | lr _ _ | sr _ _ | ad _ _ | su _ _ => exact withOperand_mapNext rfl fun _ => rfl
  | cr _ _ => exact whenExtControl_mapNext rfl rfl (withOperand_mapNext rfl fun _ => rfl)
  | jp _ _ => exact withOperand_mapNext rfl fun _ => jumpVia_mapNext rfl rfl fun _ => rfl
  | jb _ _ =>
    refine whenExtControl_mapNext rfl rfl (withOperand_mapNext rfl fun ea => ?_)
    dsimp only
    split
    · exact jumpVia_mapNext rfl rfl fun _ => rfl
    · rfl
  | halt => exact whenExtControl_mapNext rfl rfl rfl

theorem step_ignores_sp_status (s : State) (v : Byte) (st : StepStatus) :
    step { s with sp := v, status := st } = mapNext (fun t => { t with sp := v }) (step s) := by
  have hfetch : fetch { s with sp := v, status := st } = fetch s := rfl
  unfold step
  rw [hfetch]
  cases fetch s with
  | error r => rfl
  | ok w =>
    dsimp only
    cases decode w with
    | error _ => rfl
    | ok i => exact exec_ignores_sp_status i s v st

/-- What an advance can answer: the state and status of a step, or a fault of the step's own `pc` (R10, R68, R83). -/
theorem advance_cases {s t : State} {res : StepResult} (h : advance s = some (t, res)) :
    (step s = .next t ∧ res = t.status.result) ∨ ∃ r : Fault, res = .faulted r.kind r.slot r.raw ∧ r.slot = s.pc := by
  obtain ⟨u, hstep⟩ | ⟨r, hstep, _, hslot⟩ := step_answers s
  · rw [advance_of_next hstep] at h
    cases h
    exact .inl ⟨hstep, rfl⟩
  · simp only [advance, hstep] at h
    cases h
    exact .inr ⟨r, rfl, hslot⟩

theorem advance_faulted_pc {s t : State} {k : FaultKind} {pc : Slot} {raw : Option Word}
    (h : advance s = some (t, .faulted k pc raw)) : pc = s.pc := by
  obtain ⟨_, hres⟩ | ⟨r, hres, hslot⟩ := advance_cases h
  · cases hst : t.status <;> simp [hst, StepStatus.result] at hres
  · cases hres
    exact hslot

theorem step_of_advance_halted {s t : State} (h : advance s = some (t, .halted)) :
    step s = .next t ∧ t.status = .halted := by
  obtain ⟨hstep, hres⟩ | ⟨r, hres, _⟩ := advance_cases h
  · refine ⟨hstep, ?_⟩
    cases hst : t.status with
    | continued => rw [hst] at hres; cases hres
    | halted => rfl
  · cases hres

/-- A step whose status is `Halted` changed nothing else (R69): every other completion commits. -/
theorem step_halted_eq {s t : State} (h : step s = .next t) (hst : t.status = .halted) :
    t = { s with status := .halted } := by
  obtain ⟨_, i, _, hexec⟩ := step_next h
  cases exec_completes hexec with
  | halts => rfl
  | _ => cases hst

end Sys2Proof.Machine

namespace Sys2Proof.Proofs

open Sys2Proof.Machine Sys2Proof.Said

/-- Settles O10, branch by branch: the fetch, the decoder, the gate of `EXT_CONTROL`, then the operand check and the
instruction. -/
theorem stepRefinesAdvancePseudocode : Obligations.StepRefinesAdvancePseudocode := by
  intro s
  by_cases hout : 96 ≤ s.pc.toNat
  · rw [step_of_pc_outside hout, pseudoAdvance_of_pc_outside hout]
  have hpc := Nat.not_le.1 hout
  cases hdec : decode (slotWord s) with
  | error r => rw [step_of_decode_error hpc hdec, pseudoAdvance_of_decode_error hpc hdec]
  | ok i =>
    rw [step_of_decode hpc hdec]
    by_cases hgate : i.mnemonic.extControlled = true → s.config.extControl = true
    · exact (pseudoAdvance_of_gate_open hpc hdec hgate).symm
    · obtain ⟨hm, hext⟩ := Classical.not_imp.1 hgate
      rw [exec_of_gate_shut hm (Bool.eq_false_iff.2 hext), pseudoAdvance_of_gate_shut hpc hdec hgate]

/-- Settles O13: a faulted advance returns the state it was given, and a halted one a state that the next step does not
tell apart from it. -/
theorem faultedAndHaltedAdvancesRepeat : Obligations.FaultedAndHaltedAdvancesRepeat := by
  refine ⟨fun s t k pc raw h => ?_, fun s t h => ?_⟩
  · obtain rfl := advance_faulted h
    exact ⟨rfl, advance_faulted_pc h, h⟩
  · obtain ⟨hstep, hst⟩ := step_of_advance_halted h
    have ht := step_halted_eq hstep hst
    have hagain : step t = .next t := by
      have hcarry := step_ignores_sp_status s s.sp .halted
      rw [hstep] at hcarry
      subst ht
      exact hcarry
    refine ⟨ht, ?_⟩
    rw [advance_of_next hagain, hst]
    rfl

/-- Settles O14: fetch, decoder and every instruction read other fields. -/
theorem stepIgnoresStackPointerAndStatus : Obligations.StepIgnoresStackPointerAndStatus :=
  step_ignores_sp_status

/-- Settles O30, from the six ways an instruction completes. -/
theorem stepWritesOneCategory : Obligations.StepWritesOneCategory := by
  intro s t h
  obtain ⟨_, i, _, hexec⟩ := step_next h
  cases exec_completes hexec with
  | writesAcc => exact .inr (.inr ⟨rfl, rfl⟩)
  | stores => exact .inr (.inl ⟨rfl, rfl⟩)
  | _ => exact .inl ⟨rfl, rfl⟩

/-- Settles O8: after fetch and decode nothing is left but the instruction. -/
theorem stepRunsDecodedInstruction : Obligations.StepRunsDecodedInstruction :=
  fun _ _ => step_of_decode

end Sys2Proof.Proofs

/-! ## The family `41_load_store.md`

LR and SR (R72, R73): the bytes of their encoding, the word's bytes as numbers (R32), and the word a load returns after
a store to the same operand pair. -/

namespace Sys2Proof

/-! ### Bytes

The big-endian bytes of a word are the digits of its value to the base 256 (R9, R32). -/

theorem byte0_toNat (w : Word) : (byte0 w).toNat = w.toNat / 2 ^ 24 := by
  simp only [byte0, BitVec.extractLsb'_toNat, Nat.shiftRight_eq_div_pow]
  omega

theorem byte1_toNat (w : Word) : (byte1 w).toNat = w.toNat / 2 ^ 16 % 256 := by
  simp only [byte1, BitVec.extractLsb'_toNat, Nat.shiftRight_eq_div_pow]

theorem byte2_toNat (w : Word) : (byte2 w).toNat = w.toNat / 2 ^ 8 % 256 := by
  simp only [byte2, BitVec.extractLsb'_toNat, Nat.shiftRight_eq_div_pow]

theorem byte3_toNat (w : Word) : (byte3 w).toNat = w.toNat % 256 := by
  simp only [byte3, BitVec.extractLsb'_toNat, Nat.shiftRight_zero]

/-- The bytes an instruction's word is made of are the bytes it has in the image (R33). -/
theorem encodeBytes_of_encode {i : Instr} {b0 b1 b2 b3 : Byte} (h : encode i = wordOfBytes b0 b1 b2 b3) :
    encodeBytes i = [b0, b1, b2, b3] := by
  simp only [encodeBytes, h, byte0_wordOfBytes, byte1_wordOfBytes, byte2_wordOfBytes, byte3_wordOfBytes]

end Sys2Proof

namespace Sys2Proof.Machine

open Sys2Proof.Said

/-! ### The operand word -/

/-- An operand byte out of range faults, whatever the body would do (R40). -/
theorem withOperand_of_not_inRange {i : Instr} {x y : Byte} {s : State}
    {body : Addr → Host.Outcome State Fault Refusal} (h : ¬ InRange x y) :
    withOperand i x y s body = .fault (.operandOutOfRange s.pc (encode i)) :=
  withOperand_none (translateOperands_eq_none h)

/-- A stored word, byte by byte: its digits to the base 256, most significant at the lowest address (R32, R73). -/
theorem readByte_writeWord_toNat (m : Memory) (ea : Addr) (w : Word) :
    ((m.writeWord ea w).readByte ea.toNat).toNat = w.toNat / 2 ^ 24 ∧
    ((m.writeWord ea w).readByte (ea.toNat + 1)).toNat = w.toNat / 2 ^ 16 % 256 ∧
    ((m.writeWord ea w).readByte (ea.toNat + 2)).toNat = w.toNat / 2 ^ 8 % 256 ∧
    ((m.writeWord ea w).readByte (ea.toNat + 3)).toNat = w.toNat % 256 := by
  simp [readByte_writeWord, byte0_toNat, byte1_toNat, byte2_toNat, byte3_toNat]

end Sys2Proof.Machine

namespace Sys2Proof.Proofs

open Sys2Proof.Machine Sys2Proof.Said

/-- Settles O16: LR reads the word at the translated address, and the MAT and the fetch give its faults. -/
theorem loadRegisterReadsAddressedWord : Obligations.LoadRegisterReadsAddressedWord :=
  fun _ _ _ => ⟨encodeBytes_of_encode rfl, execLr_of_inRange, withOperand_of_not_inRange, step_of_pc_outside⟩

/-- Settles O17: SR's store is one word write at the translated address, which sets the word's four bytes and no
other. -/
theorem storeRegisterWritesAddressedWord : Obligations.StoreRegisterWritesAddressedWord := by
  refine fun x y s => ⟨encodeBytes_of_encode rfl, fun hrange => ?_, withOperand_of_not_inRange, step_of_pc_outside⟩
  obtain ⟨ea, hea⟩ := exists_translateOperands hrange
  rw [← (translateOperands_eq_some hea).2]
  obtain ⟨h0, h1, h2, h3⟩ := readByte_writeWord_toNat s.mem ea s.acc
  exact ⟨s.mem.writeWord ea s.acc, withOperand_some hea, h0, h1, h2, h3,
    fun _ => readByte_writeWord_outside s.mem ea s.acc⟩

/-- Settles O32: both instructions translate the pair to the same address, where the image reads back the word
written. -/
theorem storeThenLoadReturnsValue : Obligations.StoreThenLoadReturnsValue := by
  intro x y s hrange
  obtain ⟨ea, hea⟩ := exists_translateOperands hrange
  refine ⟨_, withOperand_some hea, fun u hmem => ⟨_, withOperand_some hea, ?_⟩⟩
  calc u.mem.readWord ea
      _ = (s.mem.writeWord ea s.acc).readWord ea := by rw [hmem]; rfl
      _ = s.acc := readWord_writeWord_self s.mem ea s.acc

end Sys2Proof.Proofs

/-! ## The family `42_arithmetic.md`

AD, SU and CR (R74 to R77): each instruction's encoding bytes, result and faults, and an SU that undoes the AD before
it. -/

namespace Sys2Proof.Proofs

open Sys2Proof.Machine Sys2Proof.Said

/-- Settles O18: AD adds the translated word modulo 2^32, and the MAT and the fetch give its faults. -/
theorem addWrapsAndWritesNoFlag : Obligations.AddWrapsAndWritesNoFlag :=
  fun _ _ _ => ⟨encodeBytes_of_encode rfl, execAd_of_inRange, withOperand_of_not_inRange, step_of_pc_outside⟩

/-- Settles O19: SU subtracts the translated word modulo 2^32, and the MAT and the fetch give its faults. -/
theorem subtractWrapsAndWritesNoFlag : Obligations.SubtractWrapsAndWritesNoFlag :=
  fun _ _ _ => ⟨encodeBytes_of_encode rfl, execSu_of_inRange, withOperand_of_not_inRange, step_of_pc_outside⟩

/-- Settles O20: behind the gate of `EXT_CONTROL` CR writes the flags of the difference, or the MAT gives its fault; the
shut gate faults before the operand check. -/
theorem compareWritesFlagsFromDifference : Obligations.CompareWritesFlagsFromDifference :=
  fun _ _ _ => ⟨encodeBytes_of_encode rfl, execCr_of_inRange,
    fun hext hrange => (whenExtControl_true hext).trans (withOperand_of_not_inRange hrange),
    exec_of_gate_shut rfl, step_of_pc_outside⟩

/-- Settles O34: AD keeps the image, so SU subtracts the very word that was added. -/
theorem addThenSubtractRestores : Obligations.AddThenSubtractRestores := by
  intro x y s t h
  obtain ⟨ea, hea, rfl⟩ := execAd_next h
  exact ⟨_, withOperand_some hea, BitVec.add_sub_cancel s.acc (s.mem.readWord ea), rfl,
    BitVec.add_assoc s.pc 1#16 1#16⟩

end Sys2Proof.Proofs

/-! ## The family `43_control.md`

JP, JB and HALT (R78 to R81): where a jump goes and when it overflows, a HALT that repeats, and a JP to its own slot. -/

namespace Sys2Proof.Machine

open Sys2Proof.Said

/-! ### Jumps that overflow -/

theorem jumpOrOverflow_of_overflow {s : State} {instr w : Word} (h : 0xFFFF < w.toNat) :
    jumpOrOverflow s instr w = .fault (.programCounterOverflow s.pc instr) :=
  if_pos h

theorem execJp_of_overflow {x y : Byte} {s : State} (h : InRange x y)
    (hover : 0xFFFF < (wordAt s.mem (offset x y)).toNat) :
    execJp x y s = .fault (.programCounterOverflow s.pc (encode (.jp x y))) :=
  (execJp_of_inRange h).trans (jumpOrOverflow_of_overflow hover)

theorem execJb_taken_of_overflow {x y : Byte} {s : State} (hext : s.config.extControl = true)
    (hB : borrowSet s.flags = true) (h : InRange x y) (hover : 0xFFFF < (wordAt s.mem (offset x y)).toNat) :
    execJb x y s = .fault (.programCounterOverflow s.pc (encode (.jb x y))) := by
  rw [execJb_of_inRange hext h, if_pos hB, jumpOrOverflow_of_overflow hover]

/-! ### HALT -/

theorem execHalt_of_extControl {s : State} (hext : s.config.extControl = true) :
    execHalt s = .next { s with status := .halted } :=
  whenExtControl_true hext

/-- HALT's word is the ASCII of its name (R53, R60). -/
theorem encode_halt : encode .halt = 0x48414C54#32 := by decide

/-- An advance at a slot that holds HALT answers `Halted`, whatever status an earlier step left (R69, R81). -/
theorem advance_of_haltWord {s : State} (hext : s.config.extControl = true) (hpc : s.pc.toNat < 96)
    (hword : slotWord s = 0x48414C54#32) : advance s = some ({ s with status := .halted }, .halted) := by
  have hdec : decode (slotWord s) = .ok .halt := by rw [hword, ← encode_halt, decode_encode]
  exact advance_of_next ((step_of_decode hpc hdec).trans (execHalt_of_extControl hext))

/-! ### A jump to its own slot -/

/-- A JP whose operand word is its own slot changes nothing but the reported status (R79). -/
theorem step_of_ownSlotJump {x y : Byte} {s : State} (hpc : s.pc.toNat < 96)
    (hdec : decode (slotWord s) = .ok (.jp x y)) (hrange : InRange x y) (hown : (wordAt s.mem (offset x y)).toNat = s.pc.toNat) :
    step s = .next { s with status := .continued } := by
  have hfits : (wordAt s.mem (offset x y)).toNat ≤ 0xFFFF := by omega
  calc step s
      _ = execJp x y s := step_of_decode hpc hdec
      _ = .next { s with pc := BitVec.ofNat 16 (wordAt s.mem (offset x y)).toNat, status := .continued } :=
        execJp_of_fits hrange hfits
      _ = .next { s with status := .continued } := by rw [hown, BitVec.ofNat_toNat, BitVec.setWidth_eq]

theorem run_succ_of_step {s t : State} (h : step s = .next t) (n : Nat) :
    Host.Core.run Sys2Proof.core (n + 1) s = Host.Core.run Sys2Proof.core n t := by
  have hcore : Sys2Proof.core.step s = .next t := h
  simp only [Host.Core.run, hcore]

/-- A state that a step leaves as it is comes out of any number of steps. -/
theorem run_of_step_self {s : State} (h : step s = .next s) (n : Nat) : Host.Core.run Sys2Proof.core n s = .next s := by
  induction n with
  | zero => rfl
  | succ n ih => exact (run_succ_of_step h n).trans ih

end Sys2Proof.Machine

namespace Sys2Proof.Proofs

open Sys2Proof.Machine Sys2Proof.Said

/-- Settles O21: JP goes to the word at the translated address or overflows, and the MAT and the fetch give its other
faults. -/
theorem jumpGoesToOperandWord : Obligations.JumpGoesToOperandWord :=
  fun _ _ _ => ⟨encodeBytes_of_encode rfl, execJp_of_fits, execJp_of_overflow, withOperand_of_not_inRange,
    step_of_pc_outside⟩

/-- Settles O22: behind the gate of `EXT_CONTROL` and the operand check, JB narrows the target word only when `B` is
set. -/
theorem jumpIfBelowTestsBorrow : Obligations.JumpIfBelowTestsBorrow :=
  fun _ _ _ => ⟨encodeBytes_of_encode rfl,
    fun hext hrange hB => execJb_taken_of_fits hext hB hrange,
    fun hext hrange hB => execJb_taken_of_overflow hext hB hrange,
    fun hext hrange hB => execJb_not_taken hext (Bool.eq_false_iff.2 hB) hrange,
    fun hext hrange => (whenExtControl_true hext).trans (withOperand_of_not_inRange hrange),
    exec_of_gate_shut rfl, step_of_pc_outside⟩

/-- Settles O37: the first step at most sets the status to `Continued`, and from there every step returns the state it
was given. -/
theorem jumpToOwnSlotNeverStops : Obligations.JumpToOwnSlotNeverStops := by
  intro x y s hpc hdec hrange hown n
  cases n with
  | zero => exact ⟨s.status, rfl⟩
  | succ n =>
    have hfirst : step s = .next { s with status := .continued } := step_of_ownSlotJump hpc hdec hrange hown
    have hagain : step { s with status := .continued } = .next { s with status := .continued } :=
      step_of_ownSlotJump hpc hdec hrange hown
    exact ⟨.continued, (run_succ_of_step hfirst n).trans (run_of_step_self hagain n)⟩

/-- Settles O23: HALT sets only the status, on which neither the slot's word nor the gate of `EXT_CONTROL` depends. -/
theorem haltChangesNothing : Obligations.HaltChangesNothing :=
  fun _ => ⟨encode_halt, execHalt_of_extControl,
    fun hext hpc hword => ⟨advance_of_haltWord hext hpc hword, advance_of_haltWord hext hpc hword⟩,
    fun hext => encode_halt ▸ exec_of_gate_shut rfl hext, step_of_pc_outside⟩

end Sys2Proof.Proofs

/-! ## The family `60_exceptions.md`

Which fault a step reports (R86), and what the fault record shows at the ports (R87). -/

namespace Sys2Proof.Machine

open Sys2Proof.Said

/-! ### The reported kind -/

@[simp] theorem reported_next (t : State) : reported (.next t) = none := rfl

@[simp] theorem reported_fault (r : Fault) : reported (.fault r) = some r.kind := rfl

theorem reported_jumpOrOverflow (s : State) (instr w : Word) :
    reported (jumpOrOverflow s instr w) = if 0xFFFF < w.toNat then some .programCounterOverflow else none := by
  unfold jumpOrOverflow
  split_ifs <;> rfl

/-- A step that reports no fault gives a next state, since no step is refused (R10). -/
theorem exists_next_of_reported_none {s : State} (h : reported (step s) = none) : ∃ t, step s = .next t := by
  obtain hnext | ⟨r, hfault, _⟩ := step_answers s
  · exact hnext
  · rw [hfault] at h
    cases h

/-! ### The fault record -/

/-- Every kind but that of a failed fetch records a word (R83). -/
theorem Fault.isSome_raw (r : Fault) : r.raw.isSome = decide (r.kind ≠ .programCounterOutOfBounds) := by
  cases r <;> rfl

theorem jumpOrOverflow_fault_raw {s : State} {instr w : Word} {r : Fault} (h : jumpOrOverflow s instr w = .fault r) :
    r.raw = some instr := by
  unfold jumpOrOverflow at h
  split_ifs at h
  cases h
  rfl

/-- Past the fetch, every fault of the pseudocode records the slot's word (R63, R87). -/
theorem pseudoAdvance_fault_raw {s : State} {r : Fault} (hpc : s.pc.toNat < 96) (h : pseudoAdvance s = .fault r) :
    r.raw = some (slotWord s) := by
  simp only [pseudoAdvance, if_neg (Nat.not_le.2 hpc)] at h
  cases hop : opOf (slotWord s) with
  | none => simp only [hop] at h; cases h; rfl
  | some op =>
    simp only [hop] at h
    split at h
    · cases h; rfl
    split at h
    · cases h
    split at h
    · cases h; rfl
    cases op with
    | JP => exact jumpOrOverflow_fault_raw h
    | JB =>
      dsimp only at h
      split_ifs at h
      exact jumpOrOverflow_fault_raw h
    | _ => cases h

end Sys2Proof.Machine

namespace Sys2Proof.Proofs

open Sys2Proof.Machine Sys2Proof.Said

/-- The word a faulted step records: the slot's, where the step fetched it (R42, R87). -/
theorem step_fault_raw {s : State} {r : Fault} (h : step s = .fault r) :
    r.raw = if s.pc.toNat < 96 then some (slotWord s) else none := by
  split_ifs with hpc
  · exact pseudoAdvance_fault_raw hpc ((stepRefinesAdvancePseudocode s).symm.trans h)
  · rw [step_of_pc_outside (Nat.not_lt.1 hpc)] at h
    cases h
    rfl

/-- Settles O11: the pseudocode of R63 makes the tests of R86 in the same order, which is read off operation by
operation; and a step that reports no fault completes. -/
theorem firstApplicableFaultIsReported : Obligations.FirstApplicableFaultIsReported := by
  intro s instr x y first
  have hreported : reported (step s) = first := by
    rw [stepRefinesAdvancePseudocode s]
    simp only [pseudoAdvance, apply_ite reported, first, x, y, instr]
    refine if_congr Iff.rfl rfl ?_
    cases opOf (slotWord s) with
    | none => rfl
    | some op =>
      cases op with
      | JP => simp [apply_ite reported, reported_jumpOrOverflow, Fault.kind]
      | JB => simp [apply_ite reported, reported_jumpOrOverflow, Fault.kind, ite_and]
      | _ => simp [apply_ite reported, Fault.kind]
  exact ⟨hreported, fun hnone => exists_next_of_reported_none (hreported.trans hnone)⟩

/-- Settles O45: the reply to a faulted advance carries the fault record, and the ports show the reply. -/
theorem faultPortsCarryReport : Obligations.FaultPortsCarryReport := by
  intro s r h
  have hadvance : advance s = some (s, .faulted r.kind r.slot r.raw) := by simp only [advance, h]
  have hslot : r.slot = s.pc := advance_faulted_pc hadvance
  refine ⟨_, hadvance, rfl, congrArg some hslot, ?_, congrArg some r.isSome_raw, ?_, ?_⟩
  · cases r <;> rfl
  · simp only [outPorts, step_fault_raw h]
    split_ifs <;> rfl
  · exact fun _ => byte0_wordOfBytes _ _ _ _

end Sys2Proof.Proofs

/-! ## The family `70_reset_and_hazards.md`

The loader (R95), the image a reset takes (R93) and the bytes the host reads back (R97). -/

namespace Sys2Proof.Machine

/-! ### The bytes read back -/

@[simp] theorem length_bytesFrom (m : Memory) (a n : Nat) : (m.bytesFrom a n).length = n := by
  induction n generalizing a with
  | zero => rfl
  | succ n ih => exact congrArg (· + 1) (ih (a + 1))

@[simp] theorem getElem_bytesFrom (m : Memory) (a n : Nat) {i : Nat} (hi : i < (m.bytesFrom a n).length) :
    (m.bytesFrom a n)[i] = m.readByte (a + i) := by
  induction n generalizing a i with
  | zero => cases hi
  | succ n ih =>
    cases i with
    | zero => rfl
    | succ i =>
      have htail : (m.bytesFrom (a + 1) n)[i]'(Nat.lt_of_succ_lt_succ hi) = m.readByte (a + 1 + i) := ih (a + 1) _
      rwa [Nat.add_right_comm] at htail

/-! ### The bytes laid out -/

theorem ofBytes_cons_unlisted (a : Nat) (rest : List Byte) :
    Memory.ofBytes a (unlistedByte :: rest) = Memory.ofBytes (a + 1) rest := if_pos rfl

theorem ofBytes_cons_listed (a : Nat) {v : Byte} (rest : List Byte) (hv : v ≠ unlistedByte) :
    Memory.ofBytes a (v :: rest) = (a, v) :: Memory.ofBytes (a + 1) rest := if_neg hv

/-- An address other than the first reads as the rest, laid out from the next address, does. -/
theorem readByte_ofBytes_cons_ne (v : Byte) (rest : List Byte) {a k : Nat} (h : a ≠ k) :
    (Memory.ofBytes a (v :: rest)).readByte k = (Memory.ofBytes (a + 1) rest).readByte k := by
  obtain rfl | hv := eq_or_ne v unlistedByte
  · rw [ofBytes_cons_unlisted]
  · rw [ofBytes_cons_listed a rest hv, readByte_cons_ne v _ h]

/-- The first address reads as the first byte: it is listed, or it lies below every listed one. -/
theorem readByte_ofBytes_cons_self (v : Byte) (rest : List Byte) {a : Nat} (hfit : a + (v :: rest).length ≤ 1024) :
    (Memory.ofBytes a (v :: rest)).readByte a = v := by
  rw [List.length_cons] at hfit
  obtain rfl | hv := eq_or_ne v unlistedByte
  · rw [ofBytes_cons_unlisted]
    exact readByte_below (wfFrom_ofBytes rest (a + 1) (by omega)) (Nat.lt_succ_self a)
  · rw [ofBytes_cons_listed a rest hv, readByte_cons_self]

/-- A byte sequence laid out inside the image reads as it was supplied. -/
theorem readByte_ofBytes {b : List Byte} {a : Nat} (hfit : a + b.length ≤ 1024) {i : Nat} (hi : i < b.length) :
    (Memory.ofBytes a b).readByte (a + i) = b[i] := by
  induction b generalizing a i with
  | nil => cases hi
  | cons v rest ih =>
    cases i with
    | zero => exact readByte_ofBytes_cons_self v rest hfit
    | succ i =>
      rw [List.length_cons] at hfit hi
      calc (Memory.ofBytes a (v :: rest)).readByte (a + (i + 1))
        _ = (Memory.ofBytes (a + 1) rest).readByte (a + (i + 1)) := readByte_ofBytes_cons_ne v rest (by omega)
        _ = (Memory.ofBytes (a + 1) rest).readByte (a + 1 + i) := by rw [Nat.add_assoc, Nat.add_comm 1]
        _ = rest[i] := ih (by omega) (by omega)

/-! ### There and back -/

theorem bytesFrom_ofBytes {b : List Byte} {a : Nat} (hfit : a + b.length ≤ 1024) :
    (Memory.ofBytes a b).bytesFrom a b.length = b :=
  List.ext_getElem (length_bytesFrom _ _ _) fun _ hread hi =>
    (getElem_bytesFrom _ _ _ hread).trans (readByte_ofBytes hfit hi)

/-- The bytes determine a canonical memory (`eq_of_readByte_eq`), and both memories read as the same bytes. -/
theorem ofBytes_bytesFrom {m : Memory} (h : m.wf = true) : Memory.ofBytes 0 (m.bytesFrom 0 1024) = m := by
  have hfit : 0 + (m.bytesFrom 0 1024).length ≤ 1024 := by simp
  refine eq_of_readByte_eq (wfFrom_ofBytes _ 0 hfit) h fun a ha => ?_
  have hread := readByte_ofBytes hfit (i := a) (by simpa using ha)
  rwa [getElem_bytesFrom, Nat.zero_add] at hread

theorem Image.fits (image : Image) : 0 + image.bytes.length ≤ 1024 :=
  (Nat.zero_add _).trans_le image.size.le

theorem construct_readByte (c : Config) (image : Image) {a : Nat} (ha : a < image.bytes.length) :
    (State.construct c image).mem.readByte a = image.bytes[a] := by
  rw [construct_mem, ← readByte_ofBytes image.fits ha, Nat.zero_add]

theorem construct_imageBytesOf (c : Config) (image : Image) : (State.construct c image).imageBytesOf = image.bytes := by
  have h := bytesFrom_ofBytes image.fits
  rwa [image.size] at h

/-! ### The loader -/

theorem loadImage_of_length {b : List Byte} (h : b.length = 1024) : loadImage b = .ok ⟨b, h⟩ := dif_pos h

theorem loadImage_of_length_ne {b : List Byte} (h : b.length ≠ 1024) : loadImage b = .error .malformedProgramImage :=
  dif_neg h

theorem boot_of_loadImage_ok {b : List Byte} {image : Image} (h : loadImage b = .ok image) (c : Config) :
    State.boot c b = .ok (State.construct c image) := by
  simp only [State.boot, h]

theorem boot_of_loadImage_error {b : List Byte} {k : FaultKind} (h : loadImage b = .error k) (c : Config) :
    State.boot c b = .error k := by
  simp only [State.boot, h]

end Sys2Proof.Machine

namespace Sys2Proof.Proofs

open Sys2Proof.Machine

/-- Settles O47: the reply to `reset` is the constructed state, whose image reads as the supplied bytes. -/
theorem resetTakesSuppliedImage : Obligations.ResetTakesSuppliedImage := by
  intro s image
  refine ⟨State.construct s.config image, rfl, rfl, rfl, rfl, rfl, rfl, fun a ha => ?_, construct_imageBytesOf _ image⟩
  have hlisted : a < image.bytes.length := ha.trans_eq image.size.symm
  rw [construct_readByte _ image hlisted, List.getElem?_eq_getElem hlisted]

/-- Settles O49: canonical memories that read the same are equal. -/
theorem imageReadBackRebuildsMemory : Obligations.ImageReadBackRebuildsMemory :=
  fun s h => ⟨length_bytesFrom s.mem 0 1024, ofBytes_bytesFrom h⟩

/-- Settles O48: the loader decides by the length alone, and construction hands its answer on. -/
theorem loaderAcceptsOnlyFullImages : Obligations.LoaderAcceptsOnlyFullImages := by
  refine fun b => ⟨fun hlen => ?_, fun hlen => ?_⟩
  · have hload := loadImage_of_length hlen
    exact ⟨⟨b, hlen⟩, hload, rfl, boot_of_loadImage_ok hload⟩
  · have hload := loadImage_of_length_ne hlen
    exact ⟨hload, boot_of_loadImage_error hload⟩

end Sys2Proof.Proofs
